-- ==== Sys2Proof/Word.lean ====
section
/-! DEFINITION. The word types of UDPLB-CORE (spec/00_scope.md R8, R13). -/

namespace Sys2Proof

/-- A byte of the frame buffer (R13, R40). -/
abbrev Byte := BitVec 8

/-- A 16-bit quantity: a checksum, a field of the response word (R75). -/
abbrev Half := BitVec 16

/-- A 32-bit quantity: an address or another 32-bit field value, as the big-endian reading of its four bytes (R69, R160). -/
abbrev Word := BitVec 32

/-- The command word `CW`, 96 bits, a value without byte order (R61, R62). -/
abbrev CmdWord := BitVec 96

/-- The response word `RW`, 72 bits, a value without byte order (R61, R75). -/
abbrev RspWord := BitVec 72

end Sys2Proof
end

