-- ==== Sys2Proof/Syntax.lean ====
section
/-! DEFINITION. The commands: one constructor per form of spec/30_encoding.md R74 (a row of spec/opcode_table.json). -/

namespace Sys2Proof

/-! A view is a byte offset from `START`, written as the natural number `0 .. 65535` it encodes (R26, R68; log entry 14). -/

/-- An address operand of `ADDREQ` and `ADDRCPY` (R63, R161): mode 0 gives the value itself, mode 1 a view of the frame. -/
inductive AddrOperand where
  | imm (x : Word)
  | view (v : Nat)
  deriving DecidableEq, Repr

/-- The ten forms of the six commands (R66, R74), with their operands as the fields of R64 and R65 name them. -/
inductive Instr where
  /-- `PARSE` (R94). -/
  | parse
  /-- `CSUMIP @v, old, new` (R126). -/
  | csumip (v : Nat) (old new : Word)
  /-- `CSUMUDP c, old, new` (R129). -/
  | csumudp (c : Half) (old new : Word)
  /-- `TTLDEC @v` (R142). -/
  | ttldec (v : Nat)
  /-- `ADDREQ a, b` (R163). -/
  | addreqImmImm (a b : Word)
  /-- `ADDREQ @a, b` (R163). -/
  | addreqViewImm (a : Nat) (b : Word)
  /-- `ADDREQ a, @b` (R163). -/
  | addreqImmView (a : Word) (b : Nat)
  /-- `ADDREQ @a, @b` (R163). -/
  | addreqViewView (a b : Nat)
  /-- `ADDRCPY @d, s` (R167). -/
  | addrcpyImm (d : Nat) (src : Word)
  /-- `ADDRCPY @d, @s` (R167). -/
  | addrcpyView (d src : Nat)
  deriving DecidableEq, Repr

end Sys2Proof
end

