-- ==== Sys2Proof/WellFormed.lean ====
section
/-! DEFINITION. Which command terms an encoding exists for: every view is in `0 .. 65535` (R8 `VIEW_W`, R68, R79). -/

namespace Sys2Proof

/-- A view operand is a 16-bit offset (R8, R26). -/
def viewInRange (v : Nat) : Bool := decide (v < 2 ^ 16)

/-- The check of a command term. Values carry their width in their type, so only views are checked. -/
def Instr.wellFormed : Instr → Bool
  | .parse => true
  | .csumip v _ _ => viewInRange v
  | .csumudp _ _ _ => true
  | .ttldec v => viewInRange v
  | .addreqImmImm _ _ => true
  | .addreqViewImm a _ => viewInRange a
  | .addreqImmView _ b => viewInRange b
  | .addreqViewView a b => viewInRange a && viewInRange b
  | .addrcpyImm d _ => viewInRange d
  | .addrcpyView d src => viewInRange d && viewInRange src

/-- `i.WellFormed`: the check passes. -/
abbrev Instr.WellFormed (i : Instr) : Prop := i.wellFormed = true

end Sys2Proof
end

