-- ==== Sys2Proof/Decode.lean ====
section
/-! DEFINITION. The decoder, total on the 2^96 command words and rejecting by name, the legality predicate, the opcode table's
match and mask values, and the encoder (spec/30_encoding.md R62 to R74). -/

namespace Sys2Proof

/-- The fields of a command word (R62). -/
structure Fields where
  opc : BitVec 4
  am : BitVec 1
  bm : BitVec 1
  rsv : BitVec 10
  v : Half
  a : Word
  b : Word
  deriving DecidableEq, Repr

/-- Why a command word is illegal (R71). The block answers `ERR_ILLEGAL` to each of them alike; the names are the model's
(log entry 15). -/
inductive Reject where
  /-- `OPC` is 0 or 7 to 15 (R66). -/
  | reservedOpcode
  /-- `RSV` is not zero (R62). -/
  | reservedBits
  /-- A mode bit is set on a command that takes no view there (R63). -/
  | modeBit
  /-- A field the command does not use is not zero (R67). -/
  | unusedField
  /-- An operand in view mode has a nonzero upper half (R68). -/
  | viewUpperHalf
  deriving DecidableEq, Repr

/-- The field positions of R62. -/
def fieldsOf (cw : CmdWord) : Fields where
  opc := cw.extractLsb' 0 4
  am := cw.extractLsb' 4 1
  bm := cw.extractLsb' 5 1
  rsv := cw.extractLsb' 6 10
  v := cw.extractLsb' 16 16
  a := cw.extractLsb' 32 32
  b := cw.extractLsb' 64 32

/-- `CW = B ++ A ++ V ++ RSV ++ BM ++ AM ++ OPC` (R62). -/
def assemble (f : Fields) : CmdWord := f.b ++ f.a ++ f.v ++ f.rsv ++ f.bm ++ f.am ++ f.opc

/-- The upper half of a 32-bit operand field, which must be zero in view mode (R63). -/
def upperHalf (x : Word) : Half := x.extractLsb' 16 16

/-- The view a 32-bit operand field names in view mode (R68). -/
def viewOf (x : Word) : Nat := (x.extractLsb' 0 16).toNat

/-- An operand of R63 from its mode bit and its field; none where a view has a nonzero upper half (R68). -/
def operandOf (m : BitVec 1) (x : Word) : Option AddrOperand :=
  if m = 0 then some (.imm x)
  else if upperHalf x = 0 then some (.view (viewOf x))
  else none

def decodeParse (f : Fields) : Except Reject Instr :=
  if f.am ≠ 0 ∨ f.bm ≠ 0 then .error .modeBit
  else if f.v ≠ 0 ∨ f.a ≠ 0 ∨ f.b ≠ 0 then .error .unusedField
  else .ok .parse

def decodeCsumip (f : Fields) : Except Reject Instr :=
  if f.am ≠ 0 ∨ f.bm ≠ 0 then .error .modeBit
  else .ok (.csumip f.v.toNat f.a f.b)

def decodeCsumudp (f : Fields) : Except Reject Instr :=
  if f.am ≠ 0 ∨ f.bm ≠ 0 then .error .modeBit
  else .ok (.csumudp f.v f.a f.b)

def decodeTtldec (f : Fields) : Except Reject Instr :=
  if f.am ≠ 0 ∨ f.bm ≠ 0 then .error .modeBit
  else if f.a ≠ 0 ∨ f.b ≠ 0 then .error .unusedField
  else .ok (.ttldec f.v.toNat)

/-- The four forms of `ADDREQ` by the two mode bits (R74). -/
def decodeAddreq (f : Fields) : Except Reject Instr :=
  if f.v ≠ 0 then .error .unusedField
  else match operandOf f.am f.a, operandOf f.bm f.b with
    | some (.imm x), some (.imm y) => .ok (.addreqImmImm x y)
    | some (.view x), some (.imm y) => .ok (.addreqViewImm x y)
    | some (.imm x), some (.view y) => .ok (.addreqImmView x y)
    | some (.view x), some (.view y) => .ok (.addreqViewView x y)
    | _, _ => .error .viewUpperHalf

/-- The two forms of `ADDRCPY` by `BM`; `AM` and `A` must be zero (R65, R67). -/
def decodeAddrcpy (f : Fields) : Except Reject Instr :=
  if f.am ≠ 0 then .error .modeBit
  else if f.a ≠ 0 then .error .unusedField
  else match operandOf f.bm f.b with
    | some (.imm y) => .ok (.addrcpyImm f.v.toNat y)
    | some (.view y) => .ok (.addrcpyView f.v.toNat y)
    | none => .error .viewUpperHalf

/-- The opcode map of R66 over the fields of a command word. -/
def decodeFields (f : Fields) : Except Reject Instr :=
  if f.rsv ≠ 0 then .error .reservedBits
  else match f.opc.toNat with
    | 1 => decodeParse f
    | 2 => decodeCsumip f
    | 3 => decodeCsumudp f
    | 4 => decodeTtldec f
    | 5 => decodeAddreq f
    | 6 => decodeAddrcpy f
    | _ => .error .reservedOpcode

/-- The decoder: every one of the 2^96 command words is a command or is rejected by name (R71). -/
def decode (cw : CmdWord) : Except Reject Instr := decodeFields (fieldsOf cw)

/-- R67: the fields that must be zero for each opcode are zero (false for the reserved opcodes of R66). -/
def unusedFieldsZero (f : Fields) : Bool :=
  match f.opc.toNat with
  | 1 => f.am == 0 && f.bm == 0 && f.v == 0 && f.a == 0 && f.b == 0
  | 2 => f.am == 0 && f.bm == 0
  | 3 => f.am == 0 && f.bm == 0
  | 4 => f.am == 0 && f.bm == 0 && f.a == 0 && f.b == 0
  | 5 => f.v == 0
  | 6 => f.am == 0 && f.a == 0
  | _ => false

/-- `legal(CW)` in R70's own words, written without the decoder. -/
def legal (cw : CmdWord) : Bool :=
  let f := fieldsOf cw
  decide (1 ≤ f.opc.toNat) && decide (f.opc.toNat ≤ 6) && f.rsv == 0 && unusedFieldsZero f
    && (f.am != 1 || upperHalf f.a == 0) && (f.bm != 1 || upperHalf f.b == 0)

/-- R74: the match and mask values of the ten forms, in the table's order. -/
def opcodeTable : List (CmdWord × CmdWord) :=
  [(0x000000000000000000000001#96, 0xFFFFFFFFFFFFFFFFFFFFFFFF#96),
   (0x000000000000000000000002#96, 0x00000000000000000000FFFF#96),
   (0x000000000000000000000003#96, 0x00000000000000000000FFFF#96),
   (0x000000000000000000000004#96, 0xFFFFFFFFFFFFFFFF0000FFFF#96),
   (0x000000000000000000000005#96, 0x0000000000000000FFFFFFFF#96),
   (0x000000000000000000000015#96, 0x00000000FFFF0000FFFFFFFF#96),
   (0x000000000000000000000025#96, 0xFFFF000000000000FFFFFFFF#96),
   (0x000000000000000000000035#96, 0xFFFF0000FFFF0000FFFFFFFF#96),
   (0x000000000000000000000006#96, 0x00000000FFFFFFFF0000FFFF#96),
   (0x000000000000000000000026#96, 0xFFFF0000FFFFFFFF0000FFFF#96)]

/-- R74: `(CW & mask) == match`. -/
def rowSelects (row : CmdWord × CmdWord) (cw : CmdWord) : Bool := cw &&& row.2 == row.1

/-- The row of `opcodeTable` a form stands in. -/
def Instr.row : Instr → Nat
  | .parse => 0
  | .csumip _ _ _ => 1
  | .csumudp _ _ _ => 2
  | .ttldec _ => 3
  | .addreqImmImm _ _ => 4
  | .addreqViewImm _ _ => 5
  | .addreqImmView _ _ => 6
  | .addreqViewView _ _ => 7
  | .addrcpyImm _ _ => 8
  | .addrcpyView _ _ => 9

/-- A view in a 32-bit operand field: the offset in bits 15:0, bits 31:16 zero (R63). -/
def viewField (v : Nat) : Word := (0 : Half) ++ BitVec.ofNat 16 v

/-- The fields of a command (R64, R65, R67, R79); every field a command does not use is zero. -/
def Instr.fields : Instr → Fields
  | .parse => { opc := 1, am := 0, bm := 0, rsv := 0, v := 0, a := 0, b := 0 }
  | .csumip v old new => { opc := 2, am := 0, bm := 0, rsv := 0, v := BitVec.ofNat 16 v, a := old, b := new }
  | .csumudp c old new => { opc := 3, am := 0, bm := 0, rsv := 0, v := c, a := old, b := new }
  | .ttldec v => { opc := 4, am := 0, bm := 0, rsv := 0, v := BitVec.ofNat 16 v, a := 0, b := 0 }
  | .addreqImmImm a b => { opc := 5, am := 0, bm := 0, rsv := 0, v := 0, a := a, b := b }
  | .addreqViewImm a b => { opc := 5, am := 1, bm := 0, rsv := 0, v := 0, a := viewField a, b := b }
  | .addreqImmView a b => { opc := 5, am := 0, bm := 1, rsv := 0, v := 0, a := a, b := viewField b }
  | .addreqViewView a b => { opc := 5, am := 1, bm := 1, rsv := 0, v := 0, a := viewField a, b := viewField b }
  | .addrcpyImm d src => { opc := 6, am := 0, bm := 0, rsv := 0, v := BitVec.ofNat 16 d, a := 0, b := src }
  | .addrcpyView d src => { opc := 6, am := 0, bm := 1, rsv := 0, v := BitVec.ofNat 16 d, a := 0, b := viewField src }

/-- The encoder: the command word of a command (R62, R79). -/
def encode (i : Instr) : CmdWord := assemble i.fields

/-- The command word a row of spec/opcode_table.json gives with its low `nbits` bits `w` and every bit above them zero. -/
def tableWord (nbits w : Nat) : CmdWord := BitVec.ofNat 96 (w % 2 ^ nbits)

/-- The command the decoder reads from a table word. A command word is a value (R61), so no byte order arises. -/
def decodeTableWord (nbits w : Nat) : Option Instr :=
  match decode (tableWord nbits w) with
  | .ok i => some i
  | .error _ => none

end Sys2Proof
end

