-- ==== Sys2Proof/Config.lean ====
section
/-! DEFINITION. What an implementation fixes (R8) and the values the spec leaves free (93_implementation_defined.md U1, U6). -/

namespace Sys2Proof

/-- `FB_AW - 1` (R8: `FB_AW` is OPEN, a positive integer). Opaque: no proof can learn its value. Log entry 7. -/
opaque Config.fbAwLessOne : Nat

/-- `FB_AW`, the width of a frame-buffer address (R8, R40): a positive integer, otherwise open. Log entry 7. -/
def Config.fbAw : Nat := Config.fbAwLessOne + 1

/-- FREE VALUE. `any16` (R14, R103; U1): the 16-bit value the `n`-th draw of a run gives. Log entry 3. -/
opaque Config.any16 : Nat → Half

/-- FREE VALUE. The unspecified byte an invocation cut by reset leaves (R212; U6), at the `n`-th draw of a run. Log entry 3. -/
opaque Config.anyByte : Nat → Byte

/-- What a frame-buffer byte that nothing has written reads as. DESIGN CHOICE, unsafe: the spec gives the frame buffer no
contents of its own (R24, R211). Log entry 1. -/
def Config.unlistedByte : Byte := 0

end Sys2Proof
end

