-- ==== Sys2Proof/Machine/State.lean ====
section
/-! DEFINITION. The state of UDPLB-CORE as plain data: the frame buffer, the invocation port, the host's coming actions, the
responses emitted (spec/10_state.md, 30_encoding.md section 4, 70_reset_and_hazards.md). -/

namespace Sys2Proof.Machine

/-- The closed set of parse outcomes (R91). The order is that of the codes of R76, not the priority of the checks. -/
inductive ParseOutcome where
  | ok
  | notIPv4
  | invalidIPSize
  | tooSmallIPHeader
  | tooBigIPHeader
  | fragmentedIPPacket
  | notUDP
  | lifetimeExpired
  deriving DecidableEq, Repr

/-- The completion status of an invocation (R77). -/
inductive Status where
  | done
  | errIllegal
  | errBounds
  | errTtl0
  deriving DecidableEq, Repr

/-- A response (R75). `Response.word` in Flags.lean gives its 72 bits. For every command but `PARSE`, and for every fault, the
`OUTCOME` field is zero, the code of `ok` (R75, R78; log entry 16). -/
structure Response where
  status : Status
  outcome : ParseOutcome
  res0 : Half
  res1 : Half
  res2 : Half
  res3 : Half
  deriving DecidableEq, Repr

/-- `START` and `END` (exclusive) of an invocation (R23, R60). -/
structure Bounds where
  start : Nat
  stop : Nat
  deriving DecidableEq, Repr

/-- What the host, or the reset input, does next (R28, R222). -/
inductive HostEvent where
  /-- The transfer `(START, END, CW)` on the command port (R60; H1). -/
  | invoke (b : Bounds) (cw : CmdWord)
  /-- The host writes one byte of the frame buffer between invocations (H2). -/
  | write (addr : Nat) (val : Byte)
  /-- Reset while no invocation is in progress (R210, R211). -/
  | reset
  /-- An invocation that is accepted and then abandoned by a reset before its response (R212). -/
  | cut (b : Bounds) (cw : CmdWord)
  deriving DecidableEq, Repr

/-- The frame buffer: (address, byte) pairs, at most one an address, in the canonical form `Memory.wf`. -/
abbrev Memory := List Host.Cell

/-- The canonical form: addresses strictly rising, and no entry equal to what an unlisted address reads as. -/
abbrev Memory.wf (m : Memory) : Prop :=
  m.Pairwise (fun c d => c.1 < d.1) ∧ ∀ c ∈ m, c.2 ≠ Config.unlistedByte

/-- The state. Only `frame` is the spec's state (R24); `bounds` is the input of the invocation in progress (R23), zero when none
is (log entry 2); `host`, `responses` and `draws` are the model's own fields (log entries 3 to 5). -/
structure State where
  /-- The frame buffer (R24, R40). -/
  frame : Memory
  /-- `START` and `END` on the command port (R23, R60); both zero while the port is empty (R30). -/
  bounds : Bounds
  /-- What the host will do, the next event first (R28, R222). -/
  host : List HostEvent
  /-- The responses emitted, oldest first (R75, R232); nothing reads them (R31). -/
  responses : List Response
  /-- How many free values have been drawn (R14 `any16`; U1, U6). -/
  draws : Nat
  deriving DecidableEq, Repr

/-- The faults that stop the machine: NONE. The command faults of R181 are responses, after which the block goes on (R183, R190),
and every invocation ends with a response (R231), so no step raises one. Log entry 6. -/
inductive Fault where
  deriving DecidableEq, Repr

/-- The refusals. -/
inductive Refusal where
  /-- Raised by an arm of `exec` for an instruction that has no meaning yet; safe. No arm raises it. -/
  | notModelled (mnemonic : String)
  deriving DecidableEq, Repr

/-- After reset the block is idle: no invocation in progress, nothing on either port (R30, R210), nothing drawn. The frame buffer
is not reset by the block (R211): nothing is listed, so every byte reads as `Config.unlistedByte` (log entry 1). -/
def State.reset : State where
  frame := []
  bounds := { start := 0, stop := 0 }
  host := []
  responses := []
  draws := 0

end Sys2Proof.Machine
end

