-- ==== Sys2Proof/Machine/Flags.lean ====
section
/-! DEFINITION. The block has no flags and no status register (R22). What stands in their place is the response word: the codes
of STATUS and OUTCOME and the layout of the word (spec/30_encoding.md R75 to R78). -/

namespace Sys2Proof.Machine

/-- R77: the `STATUS` codes. -/
def Status.code : Status → BitVec 4
  | .done => 0
  | .errIllegal => 1
  | .errBounds => 2
  | .errTtl0 => 3

/-- R76: the `OUTCOME` codes. -/
def ParseOutcome.code : ParseOutcome → BitVec 4
  | .ok => 0
  | .notIPv4 => 1
  | .invalidIPSize => 2
  | .tooSmallIPHeader => 3
  | .tooBigIPHeader => 4
  | .fragmentedIPPacket => 5
  | .notUDP => 6
  | .lifetimeExpired => 7

/-- R75: `RW = RES3 ++ RES2 ++ RES1 ++ RES0 ++ OUTCOME ++ STATUS`. -/
def Response.word (r : Response) : RspWord :=
  r.res3 ++ r.res2 ++ r.res1 ++ r.res0 ++ r.outcome.code ++ r.status.code

/-- R78: `respond(DONE, 0, x, 0, 0, 0)`, the form of every command but `PARSE`. -/
def Response.doneWith (x : Half) : Response := ⟨.done, .ok, x, 0, 0, 0⟩

/-- R183: the response of a command fault, its status and zeros. -/
def Response.faulted (f : Status) : Response := ⟨f, .ok, 0, 0, 0, 0⟩

/-- R102: the response of a parse that is `Ok`, with the four views. -/
def Response.parsedOk : Response := ⟨.done, .ok, 14, 34, 26, 30⟩

/-- R103: the response of a parse that is not `Ok`; the four result fields are the free values of draws `n` to `n + 3`. -/
def Response.rejected (o : ParseOutcome) (n : Nat) : Response :=
  ⟨.done, o, Config.any16 n, Config.any16 (n + 1), Config.any16 (n + 2), Config.any16 (n + 3)⟩

end Sys2Proof.Machine
end

