-- ==== Sys2Proof/Machine/Ops.lean ====
section
/-! DEFINITION. The named operations: frame-buffer reads and writes (spec/20_memory.md), the bounds guard, responding and raising
a command fault (spec/60_exceptions.md R183). -/

namespace Sys2Proof.Machine

/-- `FB[a]` (R14, R41). -/
def Memory.read : Memory → Nat → Byte
  | [], _ => Config.unlistedByte
  | c :: rest, a => if c.1 = a then c.2 else Memory.read rest a

/-- The memory without an entry for `a`. -/
def Memory.forget (m : Memory) (a : Nat) : Memory := m.filter (fun c => c.1 != a)

/-- The memory with an entry added before the first one at a higher address. -/
def Memory.place : Memory → Nat → Byte → Memory
  | [], a, b => [(a, b)]
  | c :: rest, a, b => if a < c.1 then (a, b) :: c :: rest else c :: Memory.place rest a b

/-- `FB[a] <- b` (R41), keeping the canonical form: the value an unlisted address reads as is not listed. -/
def Memory.write (m : Memory) (a : Nat) (b : Byte) : Memory :=
  if b = Config.unlistedByte then m.forget a else (m.forget a).place a b

/-- `MemRead(a, 2)`: the byte at the lower address is the more significant (R44, R45). -/
def Memory.read16 (m : Memory) (a : Nat) : Half := m.read a ++ m.read (a + 1)

/-- `MemRead(a, 4)` (R44, R45). -/
def Memory.read32 (m : Memory) (a : Nat) : Word :=
  m.read a ++ m.read (a + 1) ++ m.read (a + 2) ++ m.read (a + 3)

/-- `MemWrite(a, 2, v)`: the most significant byte goes to `a` (R46). -/
def Memory.write16 (m : Memory) (a : Nat) (v : Half) : Memory :=
  (m.write a (v.extractLsb' 8 8)).write (a + 1) (v.extractLsb' 0 8)

/-- `MemWrite(a, 4, v)` (R46). -/
def Memory.write32 (m : Memory) (a : Nat) (v : Word) : Memory :=
  (((m.write a (v.extractLsb' 24 8)).write (a + 1) (v.extractLsb' 16 8)).write (a + 2) (v.extractLsb' 8 8)).write
    (a + 3) (v.extractLsb' 0 8)

/-- The empty command port: the model's value for bounds when no invocation is in progress (log entry 2). -/
def Bounds.idle : Bounds := { start := 0, stop := 0 }

/-- The bounds guard `fits(off, n)`: `START + off + n <= END` over the natural numbers (R42). -/
abbrev Bounds.fits (b : Bounds) (off n : Nat) : Prop := b.start + off + n ≤ b.stop

/-- The frame-buffer address of offset `off` from `START` (R48, R85). -/
def State.addr (s : State) (off : Nat) : Nat := s.bounds.start + off

/-- `MemRead(START + off, 1)`. -/
def State.load8 (s : State) (off : Nat) : Byte := s.frame.read (s.addr off)

/-- `MemRead(START + off, 2)`. -/
def State.load16 (s : State) (off : Nat) : Half := s.frame.read16 (s.addr off)

/-- `MemRead(START + off, 4)`. -/
def State.load32 (s : State) (off : Nat) : Word := s.frame.read32 (s.addr off)

/-- `MemWrite(START + off, 1, v)`. -/
def State.store8 (s : State) (off : Nat) (v : Byte) : State := { s with frame := s.frame.write (s.addr off) v }

/-- `MemWrite(START + off, 2, v)`. -/
def State.store16 (s : State) (off : Nat) (v : Half) : State := { s with frame := s.frame.write16 (s.addr off) v }

/-- `MemWrite(START + off, 4, v)`. -/
def State.store32 (s : State) (off : Nat) (v : Word) : State := { s with frame := s.frame.write32 (s.addr off) v }

/-- The block takes the transfer at the head of its command port: the bounds are there while the command runs (R27, R28). -/
def State.accept (s : State) (b : Bounds) (rest : List HostEvent) : State := { s with bounds := b, host := rest }

/-- `respond(...)`: the invocation ends, its response is emitted and its bounds are not remembered (R14, R23, R75). -/
def State.respond (s : State) (r : Response) : State :=
  { s with bounds := Bounds.idle, responses := s.responses ++ [r] }

/-- `raise <Fault>()`, the block's one way to report a fault: a response with the fault's status and nothing else (R183). -/
def State.raise (s : State) (f : Status) : State := s.respond (Response.faulted f)

/-- The response of a parse outcome other than `Ok`, which draws four free values (R103; U1). -/
def State.respondRejected (s : State) (o : ParseOutcome) : State :=
  { s with draws := s.draws + 4 }.respond (Response.rejected o s.draws)

end Sys2Proof.Machine
end

