-- ==== Sys2Proof/Machine/Operands.lean ====
section
/-! DEFINITION. The layout constants (spec/00_scope.md R9 to R11) and the operand forms: header views, address views, address
operands (spec/20_memory.md R48, spec/43_address_utility.md R161). -/

namespace Sys2Proof.Machine

/-- R9 `ETH_HLEN`. -/
@[simp] abbrev ethHlen : Nat := 14
/-- R9 `IP_HLEN`, also the length of an IPv4 header view (R26). -/
@[simp] abbrev ipHlen : Nat := 20
/-- The length of an address view (R26). -/
@[simp] abbrev addrLen : Nat := 4
/-- R9 `ETHERTYPE_IPV4`. -/
@[simp] abbrev ethertypeIpv4 : Half := 0x0800
/-- R9 `IPPROTO_UDP`. -/
@[simp] abbrev ipprotoUdp : Byte := 17
/-- R9 `IHL_REQ`. -/
@[simp] abbrev ihlReq : Nat := 5
/-- R9 `FRAG_OFF_MASK`. -/
@[simp] abbrev fragOffMask : Half := 0x1FFF
/-- R10 `MF_MASK`. -/
@[simp] abbrev mfMask : Half := 0x2000
/-- R10 `IP_TTL_OFF`, in a header. -/
@[simp] abbrev ipTtlOff : Nat := 8
/-- R10 `IP_CSUM_OFF`, in a header. -/
@[simp] abbrev ipCsumOff : Nat := 10
/-- R11 `F_ETYPE`, in a frame. -/
@[simp] abbrev fEtype : Nat := 12
/-- R11 `F_IP`, in a frame. -/
@[simp] abbrev fIp : Nat := 14
/-- R11 `F_FRAG`, in a frame. -/
@[simp] abbrev fFrag : Nat := 20
/-- R11 `F_TTL`, in a frame. -/
@[simp] abbrev fTtl : Nat := 22
/-- R11 `F_PROTO`, in a frame. -/
@[simp] abbrev fProto : Nat := 23

/-- Whether a header view lies inside the bounds, tested whole (R48). -/
abbrev State.headerFits (s : State) (v : Nat) : Prop := s.bounds.fits v ipHlen

/-- Whether an address view lies inside the bounds (R48). -/
abbrev State.addressFits (s : State) (v : Nat) : Prop := s.bounds.fits v addrLen

/-- The guard of an address operand: a view must fit, a value needs no test (R161). -/
def State.operandFits (s : State) : AddrOperand → Bool
  | .imm _ => true
  | .view v => decide (s.addressFits v)

/-- `addr_val(m, X)` (R161). -/
def State.addrVal (s : State) : AddrOperand → Word
  | .imm x => x
  | .view v => s.load32 v

end Sys2Proof.Machine
end

