-- ==== Sys2Proof/Machine/HostActions.lean ====
section
/-! DEFINITION. What the host and the reset input do (spec/70_reset_and_hazards.md R210 to R212, R222). -/

namespace Sys2Proof.Machine

/-- The host writes one byte of the frame buffer between invocations (R222 H2). -/
def State.hostWrite (s : State) (a : Nat) (b : Byte) : State := { s with frame := s.frame.write a b }

/-- Reset while idle: the block stays idle and the frame buffer is not touched (R210, R211). -/
def State.resetBlock (s : State) : State := { s with bounds := Bounds.idle }

/-- The addresses a command can write, of the commands whose guards pass (R49, R43): 2 bytes for `CSUMIP`, 3 for `TTLDEC`, 4 for
`ADDRCPY`, none for the others. The time-to-live of `TTLDEC` is not looked at (log entry 8). -/
def State.writeSet (s : State) : Instr → List Nat
  | .parse => []
  | .csumip v _ _ => if s.headerFits v then [s.addr (v + 10), s.addr (v + 11)] else []
  | .csumudp _ _ _ => []
  | .ttldec v => if s.headerFits v then [s.addr (v + 8), s.addr (v + 10), s.addr (v + 11)] else []
  | .addreqImmImm _ _ => []
  | .addreqViewImm _ _ => []
  | .addreqImmView _ _ => []
  | .addreqViewView _ _ => []
  | .addrcpyImm d _ => if s.addressFits d then [s.addr d, s.addr (d + 1), s.addr (d + 2), s.addr (d + 3)] else []
  | .addrcpyView d src =>
    if s.addressFits d ∧ s.addressFits src then [s.addr d, s.addr (d + 1), s.addr (d + 2), s.addr (d + 3)] else []

/-- Each of the listed bytes becomes a free value, one draw a byte (R212; U6). -/
def State.scramble : List Nat → State → State
  | [], s => s
  | a :: rest, s =>
    State.scramble rest { s with frame := s.frame.write a (Config.anyByte s.draws), draws := s.draws + 1 }

/-- The write set of a command word: none for an illegal one, which writes nothing (R71). -/
def State.writeSetOf (s : State) (cw : CmdWord) : List Nat :=
  match decode cw with
  | .ok i => s.writeSet i
  | .error _ => []

/-- An accepted invocation cut by reset before its response: no response, its write set unspecified, the block idle (R212). -/
def State.cutShort (s : State) (cw : CmdWord) : State := (State.scramble (s.writeSetOf cw) s).resetBlock

end Sys2Proof.Machine
end

