-- ==== Sys2Proof/Machine/AddressUtility.lean ====
section
/-! DEFINITION. The Address Utility: `ADDREQ` and `ADDRCPY` (spec/43_address_utility.md). -/

namespace Sys2Proof.Machine

/-- `ADDREQ` on two operands (R163): both guards come before any read. -/
def State.compare (s : State) (x y : AddrOperand) : State :=
  if s.operandFits x && s.operandFits y then
    s.respond (Response.doneWith (if s.addrVal x = s.addrVal y then 1 else 0))
  else s.raise .errBounds

/-- `ADDRCPY` to a view from an operand (R167): both guards come before any access, and the source is read whole before the
destination is written (R168). -/
def State.copy (s : State) (d : Nat) (x : AddrOperand) : State :=
  if s.operandFits (.view d) && s.operandFits x then
    (s.store32 d (s.addrVal x)).respond (Response.doneWith 0)
  else s.raise .errBounds

/-- `ADDREQ a, b` (R163). -/
def execAddreqImmImm (a b : Word) (s : State) : Host.Outcome State Fault Refusal :=
  .next (s.compare (.imm a) (.imm b))

/-- `ADDREQ @a, b` (R163). -/
def execAddreqViewImm (a : Nat) (b : Word) (s : State) : Host.Outcome State Fault Refusal :=
  .next (s.compare (.view a) (.imm b))

/-- `ADDREQ a, @b` (R163). -/
def execAddreqImmView (a : Word) (b : Nat) (s : State) : Host.Outcome State Fault Refusal :=
  .next (s.compare (.imm a) (.view b))

/-- `ADDREQ @a, @b` (R163). -/
def execAddreqViewView (a b : Nat) (s : State) : Host.Outcome State Fault Refusal :=
  .next (s.compare (.view a) (.view b))

/-- `ADDRCPY @d, s` (R167). -/
def execAddrcpyImm (d : Nat) (src : Word) (s : State) : Host.Outcome State Fault Refusal :=
  .next (s.copy d (.imm src))

/-- `ADDRCPY @d, @s` (R167). -/
def execAddrcpyView (d src : Nat) (s : State) : Host.Outcome State Fault Refusal :=
  .next (s.copy d (.view src))

end Sys2Proof.Machine
end

