-- ==== Sys2Proof/Machine/Checksum.lean ====
section
/-! DEFINITION. One's-complement arithmetic on 16 bits (spec/41_checksum_updater.md R120 to R123) and the time-to-live shortcut
(spec/42_lifetime_manager.md R142). -/

namespace Sys2Proof.Machine

/-- One end-around carry: the overflow above 16 bits is added back (R120). -/
def foldStep (x : Nat) : Nat := x % 2 ^ 16 + x / 2 ^ 16

/-- At most `fuel` end-around carries, stopping when none remains. -/
def foldUpTo : Nat → Nat → Nat
  | 0, x => x
  | fuel + 1, x => if x < 2 ^ 16 then x else foldUpTo fuel (foldStep x)

/-- `fold16(x)` (R120): fold until no carry remains. Each step lowers `x`, so `x` steps are always enough. -/
def fold16 (x : Nat) : Nat := foldUpTo x x

/-- `ocadd16(a, b)`: one's-complement addition (R122). -/
def ocadd16 (a b : Half) : Half := BitVec.ofNat 16 (fold16 (a.toNat + b.toNat))

/-- The upper 16 bits of a 32-bit value. -/
def highHalf (x : Word) : Half := x.extractLsb' 16 16

/-- The lower 16 bits of a 32-bit value. -/
def lowHalf (x : Word) : Half := x.extractLsb' 0 16

/-- The accumulator of `csum_update` (R123): an exact sum of five 16-bit terms. -/
def csumAcc (hc : Half) (old new : Word) : Nat :=
  (~~~hc).toNat + (~~~(highHalf old)).toNat + (~~~(lowHalf old)).toNat + (highHalf new).toNat + (lowHalf new).toNat

/-- `csum_update(hc, old, new)` (R123). -/
def csumUpdate (hc : Half) (old new : Word) : Half := ~~~(BitVec.ofNat 16 (fold16 (csumAcc hc old new)))

/-- The checksum `TTLDEC` writes (R142): add `0x0100` in 17 bits, then one end-around carry. -/
def ttlCsum (hc : Half) : Half :=
  let s : BitVec 17 := hc.setWidth 17 + 0x0100
  s.extractLsb' 0 16 + (s.extractLsb' 16 1).setWidth 16

end Sys2Proof.Machine
end

