-- ==== Sys2Proof/Machine/ChecksumUpdater.lean ====
section
/-! DEFINITION. The Checksum Updater: `CSUMIP` and `CSUMUDP` (spec/41_checksum_updater.md). -/

namespace Sys2Proof.Machine

/-- `CSUMIP @v, old, new` (R126). -/
def execCsumip (v : Nat) (old new : Word) (s : State) : Host.Outcome State Fault Refusal :=
  if s.headerFits v then
    .next ((s.store16 (v + ipCsumOff) (csumUpdate (s.load16 (v + ipCsumOff)) old new)).respond (Response.doneWith 0))
  else .next (s.raise .errBounds)

/-- `CSUMUDP c, old, new` (R129). -/
def execCsumudp (c : Half) (old new : Word) (s : State) : Host.Outcome State Fault Refusal :=
  .next (s.respond (Response.doneWith (csumUpdate c old new)))

end Sys2Proof.Machine
end

