-- ==== Sys2Proof/Machine/HeaderParser.lean ====
section
/-! DEFINITION. The Header Parser: `PARSE` (spec/40_header_parser.md). -/

namespace Sys2Proof.Machine

/-- The header-length field: bits 3:0 of the byte at `F_IP` (R97). -/
def State.ihl (s : State) : Nat := ((s.load8 fIp).extractLsb' 0 4).toNat

/-- Check 6 (R100): the fragment offset is nonzero or the more-fragments flag is set. -/
def State.fragmented (s : State) : Bool :=
  s.load16 fFrag &&& fragOffMask != 0 || s.load16 fFrag &&& mfMask != 0

/-- The classification of the frame in its fixed priority (R92 to R101). -/
def State.classify (s : State) : ParseOutcome :=
  if ¬ s.bounds.fits 0 ethHlen then .invalidIPSize
  else if s.load16 fEtype ≠ ethertypeIpv4 then .notIPv4
  else if ¬ s.bounds.fits fIp ipHlen then .invalidIPSize
  else if s.ihl < ihlReq then .tooSmallIPHeader
  else if s.load8 fProto ≠ ipprotoUdp then .notUDP
  else if s.ihl ≠ ihlReq then .tooBigIPHeader
  else if s.fragmented then .fragmentedIPPacket
  else if s.load8 fTtl = 0 then .lifetimeExpired
  else .ok

/-- `PARSE` (R94). -/
def execParse (s : State) : Host.Outcome State Fault Refusal :=
  if s.classify = .ok then .next (s.respond Response.parsedOk)
  else .next (s.respondRejected s.classify)

end Sys2Proof.Machine
end

