-- ==== Sys2Proof/Machine/LifetimeManager.lean ====
section
/-! DEFINITION. The Lifetime Manager: `TTLDEC` (spec/42_lifetime_manager.md). -/

namespace Sys2Proof.Machine

/-- The two effects of `TTLDEC` together: the checksum, then the time-to-live (R142, R144). -/
def State.decrementTtl (s : State) (v : Nat) : State :=
  (s.store16 (v + ipCsumOff) (ttlCsum (s.load16 (v + ipCsumOff)))).store8 (v + ipTtlOff) (s.load8 (v + ipTtlOff) - 1)

/-- `TTLDEC @v` (R142). -/
def execTtldec (v : Nat) (s : State) : Host.Outcome State Fault Refusal :=
  if s.headerFits v then
    if s.load8 (v + ipTtlOff) = 0 then .next (s.raise .errTtl0)
    else .next ((s.decrementTtl v).respond (Response.doneWith 0))
  else .next (s.raise .errBounds)

end Sys2Proof.Machine
end

