-- ==== Sys2Proof/Machine/Dispatch.lean ====
section
/-! DEFINITION. The meaning of each command, one arm a form. -/

namespace Sys2Proof.Machine

def exec (i : Instr) (s : State) : Host.Outcome State Fault Refusal :=
  match i with
  -- Header Parser (spec/40_header_parser.md)
  | .parse => Sys2Proof.Machine.execParse s
  -- Checksum Updater (spec/41_checksum_updater.md)
  | .csumip v old new => Sys2Proof.Machine.execCsumip v old new s
  | .csumudp c old new => Sys2Proof.Machine.execCsumudp c old new s
  -- Lifetime Manager (spec/42_lifetime_manager.md)
  | .ttldec v => Sys2Proof.Machine.execTtldec v s
  -- Address Utility (spec/43_address_utility.md)
  | .addreqImmImm a b => Sys2Proof.Machine.execAddreqImmImm a b s
  | .addreqViewImm a b => Sys2Proof.Machine.execAddreqViewImm a b s
  | .addreqImmView a b => Sys2Proof.Machine.execAddreqImmView a b s
  | .addreqViewView a b => Sys2Proof.Machine.execAddreqViewView a b s
  | .addrcpyImm d src => Sys2Proof.Machine.execAddrcpyImm d src s
  | .addrcpyView d src => Sys2Proof.Machine.execAddrcpyView d src s

end Sys2Proof.Machine
end

