-- ==== Sys2Proof/Machine/Invoke.lean ====
section
/-! DEFINITION. Running an accepted command word: the legality test first, then the command (spec/30_encoding.md R71, R72). -/

namespace Sys2Proof.Machine

/-- The command word of the invocation in progress: an illegal one ends it with `ERR_ILLEGAL` and no other effect (R184). -/
def runCommand (cw : CmdWord) (s : State) : Host.Outcome State Fault Refusal :=
  match decode cw with
  | .ok i => exec i s
  | .error _ => .next (s.raise .errIllegal)

/-- The bounds under which a table word is presented: every 16-bit view of every kind fits (log entry 13). -/
def tableBounds : Bounds := { start := 0, stop := 65535 + 20 }

end Sys2Proof.Machine
end

