-- ==== Sys2Proof/Machine/Step.lean ====
section
/-! DEFINITION. One step: the next event of the host, or nothing while the host has none (spec/10_state.md R28). -/

namespace Sys2Proof.Machine

/-- One step. An invocation is one atomic step (R52); a block to which the host presents nothing stays idle (R30, R196). -/
def step (s : State) : Host.Outcome State Fault Refusal :=
  match s.host with
  | [] => .next s
  | .invoke b cw :: rest => runCommand cw (s.accept b rest)
  | .write a v :: rest => .next ({ s with host := rest }.hostWrite a v)
  | .reset :: rest => .next { s with host := rest }.resetBlock
  | .cut b cw :: rest => .next ((s.accept b rest).cutShort cw)

/-- The state in which the very next step runs the table word: the host presents it on the command port (log entry 13). -/
def State.withFetchWord (s : State) (nbits w : Nat) : State :=
  { s with host := .invoke tableBounds (tableWord nbits w) :: s.host }

end Sys2Proof.Machine
end

