-- ==== Sys2Proof/Safety.lean ====
section
/-! DEFINITION. The terms claims are made in: addresses inside and outside the bounds, states the ports can carry, the
from-scratch header checksum (spec/41_checksum_updater.md R124). -/

namespace Sys2Proof.Machine

/-- `START <= a < END` (R43). -/
abbrev Bounds.Holds (b : Bounds) (a : Nat) : Prop := b.start ≤ a ∧ a < b.stop

/-- Two memories hold the same bytes inside the bounds. -/
def AgreeInside (b : Bounds) (m m' : Memory) : Prop := ∀ a, b.Holds a → m.read a = m'.read a

/-- Two memories hold the same bytes everywhere. -/
def SameBytes (m m' : Memory) : Prop := ∀ a, m.read a = m'.read a

/-- Every byte outside the `n` addresses from `a` on reads in `m'` as it does in `m`. -/
def SameBytesOutside (a n : Nat) (m m' : Memory) : Prop := ∀ x, (x < a ∨ a + n ≤ x) → m'.read x = m.read x

/-- An address the frame-buffer port can carry: below `2^FB_AW` (R40). -/
abbrev AddressInSpace (a : Nat) : Prop := a < 2 ^ Config.fbAw

/-- Bounds the command port can carry (R8, R60). -/
abbrev Bounds.InSpace (b : Bounds) : Prop := AddressInSpace b.start ∧ AddressInSpace b.stop

/-- An event whose numbers the ports can carry (R8, R40, R60). -/
def HostEvent.InSpace : HostEvent → Prop
  | .invoke b _ => b.InSpace
  | .write a _ => AddressInSpace a
  | .reset => True
  | .cut b _ => b.InSpace

/-- A state all of whose addresses exist (R8, R40). -/
structure State.InRange (s : State) : Prop where
  frame : ∀ c ∈ s.frame, AddressInSpace c.1
  bounds : s.bounds.InSpace
  host : ∀ e ∈ s.host, e.InSpace

/-- Every view operand of the command lies inside the bounds (R48, R185): 20 bytes for a header view, 4 for an address view. -/
def ViewsFit (s : State) : Instr → Prop
  | .parse => True
  | .csumip v _ _ => s.bounds.fits v 20
  | .csumudp _ _ _ => True
  | .ttldec v => s.bounds.fits v 20
  | .addreqImmImm _ _ => True
  | .addreqViewImm a _ => s.bounds.fits a 4
  | .addreqImmView _ b => s.bounds.fits b 4
  | .addreqViewView a b => s.bounds.fits a 4 ∧ s.bounds.fits b 4
  | .addrcpyImm d _ => s.bounds.fits d 4
  | .addrcpyView d src => s.bounds.fits d 4 ∧ s.bounds.fits src 4

/-- What R102 guarantees of a frame whose parse is `Ok`. -/
def ParseAccepts (s : State) : Prop :=
  34 ≤ s.bounds.stop - s.bounds.start ∧
  s.frame.read16 (s.bounds.start + 12) = 0x0800 ∧
  (s.frame.read (s.bounds.start + 14)).toNat % 16 = 5 ∧
  s.frame.read (s.bounds.start + 23) = 17 ∧
  s.frame.read16 (s.bounds.start + 20) &&& 0x3FFF = 0 ∧
  1 ≤ (s.frame.read (s.bounds.start + 22)).toNat

/-- Word `w_k` of the header at address `h` (R124). -/
def headerWord (m : Memory) (h k : Nat) : Nat := (m.read16 (h + 2 * k)).toNat

/-- The word sum of the header at `h`, its checksum field `w_5` taken as zero (R124). -/
def headerSum (m : Memory) (h : Nat) : Nat :=
  headerWord m h 0 + headerWord m h 1 + headerWord m h 2 + headerWord m h 3 + headerWord m h 4
    + headerWord m h 6 + headerWord m h 7 + headerWord m h 8 + headerWord m h 9

/-- `ip_checksum_full` of the header at `h` (R124). No command computes it. -/
def ipChecksumFull (m : Memory) (h : Nat) : Half := ~~~(BitVec.ofNat 16 (fold16 (headerSum m h)))

/-- The header at `h` stores its from-scratch checksum. -/
def ChecksumCorrect (m : Memory) (h : Nat) : Prop := m.read16 (h + 10) = ipChecksumFull m h

end Sys2Proof.Machine
end

