-- ==== Sys2Proof/Certificates/Slice0/Obligations.lean ====
section
/-! DEFINITION. The statements about the model, family by family, each from the rules of spec/ its docstring names. Where a statement
writes a command port that holds nothing as bounds of zero, that is log entry 2; where it writes an `OUTCOME` field of zero as the
outcome `ok`, that is log entry 16. -/

open Sys2Proof Sys2Proof.Machine

/-! ### Encoding -/

/-- R81. Decoding inverts encoding, encoding inverts decoding on the legal words, and encoding is injective. -/
def Obligations.DecodeEncodeRoundTrip : Prop :=
  (∀ i : Instr, i.WellFormed → decode (encode i) = .ok i) ∧
  (∀ w : CmdWord, legal w = true → ∃ i : Instr, i.WellFormed ∧ decode w = .ok i ∧ encode i = w) ∧
  (∀ i j : Instr, i.WellFormed → j.WellFormed → encode i = encode j → i = j)

/-- R70, R71. A command word is legal in R70's words exactly when it is one of the commands. -/
def Obligations.LegalWordsAreTheCommands : Prop :=
  ∀ w : CmdWord, legal w = true ↔ ∃ i : Instr, decode w = .ok i

/-- R74. The ten rows are pairwise disjoint, their union is the set of legal words, and each word is selected by the row of the
form it decodes to. -/
def Obligations.OpcodeTablePartitionsLegalWords : Prop :=
  (∀ w : CmdWord, legal w = true ↔ ∃ row ∈ opcodeTable, rowSelects row w = true) ∧
  (∀ w : CmdWord, ∀ j k : Fin 10, rowSelects (opcodeTable.getD j (0, 0)) w = true →
    rowSelects (opcodeTable.getD k (0, 0)) w = true → j = k) ∧
  (∀ (w : CmdWord) (i : Instr), decode w = .ok i → rowSelects (opcodeTable.getD i.row (0, 0)) w = true)

/-- R82. The eight worked encodings, both ways. -/
def Obligations.WorkedEncodings : Prop :=
  (encode .parse = 0x000000000000000000000001#96 ∧ decode 0x000000000000000000000001#96 = .ok .parse) ∧
  (encode (.csumip 14 0x0A000002 0x0A000003) = 0x0A0000030A000002000E0002#96 ∧
    decode 0x0A0000030A000002000E0002#96 = .ok (.csumip 14 0x0A000002 0x0A000003)) ∧
  (encode (.csumudp 0xD0DB 0x0A000002 0x0A000003) = 0x0A0000030A000002D0DB0003#96 ∧
    decode 0x0A0000030A000002D0DB0003#96 = .ok (.csumudp 0xD0DB 0x0A000002 0x0A000003)) ∧
  (encode (.ttldec 14) = 0x0000000000000000000E0004#96 ∧ decode 0x0000000000000000000E0004#96 = .ok (.ttldec 14)) ∧
  (encode (.addreqViewImm 30 0x0A000002) = 0x0A0000020000001E00000015#96 ∧
    decode 0x0A0000020000001E00000015#96 = .ok (.addreqViewImm 30 0x0A000002)) ∧
  (encode (.addreqViewView 26 30) = 0x0000001E0000001A00000035#96 ∧
    decode 0x0000001E0000001A00000035#96 = .ok (.addreqViewView 26 30)) ∧
  (encode (.addrcpyImm 30 0x0A000003) = 0x0A00000300000000001E0006#96 ∧
    decode 0x0A00000300000000001E0006#96 = .ok (.addrcpyImm 30 0x0A000003)) ∧
  (encode (.addrcpyView 30 26) = 0x0000001A00000000001E0026#96 ∧
    decode 0x0000001A00000000001E0026#96 = .ok (.addrcpyView 30 26))

/-! ### Steps -/

/-- R71, R72, R183. An illegal word ends its invocation with `ERR_ILLEGAL` whatever the bounds and the frame, and has no other effect.
That the empty port is then written as bounds of zero (log entry 2) and the zero `OUTCOME` as `ok` (log entry 16) is the model's. -/
def Obligations.IllegalWordsAreRefused : Prop :=
  ∀ (s : State) (b : Bounds) (w : CmdWord) (rest : List HostEvent), s.host = .invoke b w :: rest → legal w = false →
    step s = .next { s with host := rest, bounds := { start := 0, stop := 0 },
                            responses := s.responses ++ [⟨.errIllegal, .ok, 0, 0, 0, 0⟩] }

/-- R28, R60. A step at an invocation whose word decodes to a command is that command's meaning, run with the invocation's bounds on the
command port and the event taken from the host's list. -/
def Obligations.StepRunsTheDecodedCommand : Prop :=
  ∀ (s : State) (b : Bounds) (w : CmdWord) (rest : List HostEvent) (i : Instr), s.host = .invoke b w :: rest →
    decode w = .ok i → step s = exec i { s with bounds := b, host := rest }

/-- R231, R75. Every state has a next state, and every invocation ends with exactly one response, the port empty again. -/
def Obligations.EveryInvocationAnswersOnce : Prop :=
  (∀ s : State, ∃ t, step s = .next t) ∧
  (∀ (s : State) (b : Bounds) (w : CmdWord) (rest : List HostEvent), s.host = .invoke b w :: rest →
    ∃ t r, step s = .next t ∧ t.responses = s.responses ++ [r] ∧ t.host = rest ∧ t.bounds = { start := 0, stop := 0 })

/-- R49, R20 to R22. The frame of every command: the host's list is unchanged, one response is added, the port is emptied, no free
value is drawn but by `PARSE`, and no byte of the frame buffer changes but those R49 lists. -/
def Obligations.CommandFrame : Prop :=
  ∀ (i : Instr) (s t : State), exec i s = .next t →
    t.host = s.host ∧ t.bounds = { start := 0, stop := 0 } ∧ (∃ r, t.responses = s.responses ++ [r]) ∧
    (i ≠ .parse → t.draws = s.draws) ∧
    match i with
    | .parse => t.frame = s.frame
    | .csumip v _ _ => SameBytesOutside (s.bounds.start + v + 10) 2 s.frame t.frame
    | .csumudp _ _ _ => t.frame = s.frame
    | .ttldec v => ∀ x, x ≠ s.bounds.start + v + 8 → x ≠ s.bounds.start + v + 10 → x ≠ s.bounds.start + v + 11 →
        t.frame.read x = s.frame.read x
    | .addreqImmImm _ _ => t.frame = s.frame
    | .addreqViewImm _ _ => t.frame = s.frame
    | .addreqImmView _ _ => t.frame = s.frame
    | .addreqViewView _ _ => t.frame = s.frame
    | .addrcpyImm d _ => SameBytesOutside (s.bounds.start + d) 4 s.frame t.frame
    | .addrcpyView d _ => SameBytesOutside (s.bounds.start + d) 4 s.frame t.frame

/-! ### Header Parser -/

/-- R106. `PARSE` completes in every state with `DONE`, writes nothing, and gives each outcome of the decision table exactly on the
rows that name it (so the rows are exhaustive and exclude each other). -/
def Obligations.ParseFollowsDecisionTable : Prop :=
  ∀ s : State, ∃ t r, exec .parse s = .next t ∧ t.frame = s.frame ∧ t.responses = s.responses ++ [r] ∧ r.status = .done ∧
    let len := s.bounds.stop - s.bounds.start
    let etype := s.frame.read16 (s.bounds.start + 12)
    let ihl := (s.frame.read (s.bounds.start + 14)).toNat % 16
    let proto := s.frame.read (s.bounds.start + 23)
    let fo := s.frame.read16 (s.bounds.start + 20) &&& 0x3FFF
    let ttl := (s.frame.read (s.bounds.start + 22)).toNat
    (r.outcome = .invalidIPSize ↔ len < 14 ∨ (14 ≤ len ∧ len ≤ 33 ∧ etype = 0x0800)) ∧
    (r.outcome = .notIPv4 ↔ 14 ≤ len ∧ etype ≠ 0x0800) ∧
    (r.outcome = .tooSmallIPHeader ↔ 34 ≤ len ∧ etype = 0x0800 ∧ ihl ≤ 4) ∧
    (r.outcome = .notUDP ↔ 34 ≤ len ∧ etype = 0x0800 ∧ 5 ≤ ihl ∧ proto ≠ 17) ∧
    (r.outcome = .tooBigIPHeader ↔ 34 ≤ len ∧ etype = 0x0800 ∧ 6 ≤ ihl ∧ proto = 17) ∧
    (r.outcome = .fragmentedIPPacket ↔ 34 ≤ len ∧ etype = 0x0800 ∧ ihl = 5 ∧ proto = 17 ∧ fo ≠ 0) ∧
    (r.outcome = .lifetimeExpired ↔ 34 ≤ len ∧ etype = 0x0800 ∧ ihl = 5 ∧ proto = 17 ∧ fo = 0 ∧ ttl = 0) ∧
    (r.outcome = .ok ↔ 34 ≤ len ∧ etype = 0x0800 ∧ ihl = 5 ∧ proto = 17 ∧ fo = 0 ∧ 1 ≤ ttl)

/-- R102. The frames that parse to `Ok` are those of R102's list; the response then carries the views 14, 34, 26 and 30, of which
the header and address views fit. -/
def Obligations.ParseOkReturnsViews : Prop :=
  (∀ s : State, ParseAccepts s →
    exec .parse s = .next { s with bounds := { start := 0, stop := 0 },
                                   responses := s.responses ++ [⟨.done, .ok, 14, 34, 26, 30⟩] }) ∧
  (∀ (s t : State) (r : Response), exec .parse s = .next t → t.responses = s.responses ++ [r] → r.outcome = .ok →
    ParseAccepts s ∧ r = ⟨.done, .ok, 14, 34, 26, 30⟩ ∧
      s.bounds.fits 14 20 ∧ s.bounds.fits 26 4 ∧ s.bounds.fits 30 4)

/-- R103; the free values are the model's (log entry 3). A parse that is not `Ok` carries four free values, a fresh draw each. -/
def Obligations.RejectedParseCarriesFreeValues : Prop :=
  ∀ s : State, ¬ ParseAccepts s →
    ∃ o, o ≠ .ok ∧ exec .parse s =
      .next { s with bounds := { start := 0, stop := 0 }, draws := s.draws + 4,
                     responses := s.responses ++
                       [⟨.done, o, Config.any16 s.draws, Config.any16 (s.draws + 1), Config.any16 (s.draws + 2),
                         Config.any16 (s.draws + 3)⟩] }

/-- R105. The status and outcome of `PARSE` (and on `Ok` its views) depend only on the bounds and on the bytes at offsets 12, 13, 14
and 20 to 23; it writes nothing. -/
def Obligations.ParseDependsOnSevenBytes : Prop :=
  ∀ (s s' t t' : State) (r r' : Response), s.bounds = s'.bounds →
    (∀ k ∈ [12, 13, 14, 20, 21, 22, 23], s.frame.read (s.bounds.start + k) = s'.frame.read (s.bounds.start + k)) →
    exec .parse s = .next t → exec .parse s' = .next t' →
    t.responses = s.responses ++ [r] → t'.responses = s'.responses ++ [r'] →
    r.status = r'.status ∧ r.outcome = r'.outcome ∧ (r.outcome = .ok → r = r') ∧ t.frame = s.frame ∧ t'.frame = s'.frame

/-! ### Checksum arithmetic -/

/-- R120. `fold16` replaces the number by its low 16 bits plus the rest while it is `2^16` or more; each such step lowers it; the result
has 16 bits. -/
def Obligations.FoldSixteenIteratesTheCarry : Prop :=
  (∀ x, fold16 x = if x < 2 ^ 16 then x else fold16 (x % 2 ^ 16 + x / 2 ^ 16)) ∧
  (∀ x, 2 ^ 16 ≤ x → x % 2 ^ 16 + x / 2 ^ 16 < x) ∧
  (∀ x, fold16 x < 2 ^ 16)

/-- R121 (a) to (e), which the spec derives from R120. -/
def Obligations.FoldSixteenFacts : Prop :=
  (∀ x, x < 2 ^ 16 → fold16 x = x) ∧
  (∀ x, fold16 x % 65535 = x % 65535) ∧
  fold16 0 = 0 ∧
  (∀ x, 0 < x → 1 ≤ fold16 x ∧ fold16 x ≤ 65535) ∧
  (∀ x, 0 < x → fold16 x = if x % 65535 = 0 then 65535 else x % 65535) ∧
  (∀ x, x ≤ 5 * 65535 → foldStep x ≤ 0x10003 ∧ (2 ^ 16 ≤ foldStep x → foldStep (foldStep x) ≤ 0x0003 + 1) ∧
    fold16 x = foldStep (foldStep x))

/-- R122. One's-complement addition needs one fold; complement is 65535 minus the value; adding `0xFFFF` changes only zero. -/
def Obligations.OnesComplementAddition : Prop :=
  (∀ a b : Half, a.toNat + b.toNat ≤ 0x1FFFE ∧ (ocadd16 a b).toNat = foldStep (a.toNat + b.toNat)) ∧
  (∀ b : Half, (~~~b).toNat = 65535 - b.toNat) ∧
  (∀ a : Half, a ≠ 0x0000 → ocadd16 a 0xFFFF = a) ∧
  ocadd16 0x0000 0xFFFF = 0xFFFF

/-- R123 with R121 (d). The update as a residue modulo 65535: `old` subtracted from and `new` added to the complemented checksum. -/
def Obligations.ChecksumUpdateResidue : Prop :=
  ∀ (hc : Half) (old new : Word),
    let acc := (65535 - hc.toNat) + (65535 - old.toNat / 2 ^ 16) + (65535 - old.toNat % 2 ^ 16)
      + new.toNat / 2 ^ 16 + new.toNat % 2 ^ 16
    acc ≤ 0x4FFFB ∧
    (csumUpdate hc old new).toNat =
      if acc = 0 then 65535 else if acc % 65535 = 0 then 0 else 65535 - acc % 65535

/-- R131 (a), (c), (d). Round trip, identity and composition of the update, with their exception at `0xFFFF`. -/
def Obligations.ChecksumUpdateRoundTrip : Prop :=
  (∀ (hc : Half) (x y : Word), hc ≠ 0xFFFF → csumUpdate (csumUpdate hc x y) y x = hc) ∧
  (∀ x y : Word, csumUpdate (csumUpdate 0xFFFF x y) y x = 0x0000) ∧
  (∀ (hc : Half) (x : Word), hc ≠ 0xFFFF → csumUpdate hc x x = hc) ∧
  (∀ x : Word, csumUpdate 0xFFFF x x = 0x0000) ∧
  (∀ (hc : Half) (x y z : Word), hc ≠ 0xFFFF → csumUpdate (csumUpdate hc x y) y z = csumUpdate hc x z)

/-- R131 (e), (f). When the update gives `0xFFFF`; the order of the halves does not matter. -/
def Obligations.ChecksumUpdateRangeAndHalves : Prop :=
  (∀ (hc : Half) (old new : Word), csumUpdate hc old new = 0xFFFF ↔
    hc = 0xFFFF ∧ old = 0xFFFFFFFF ∧ new = 0x00000000) ∧
  (∀ (hc old₁ old₂ : Half) (new : Word), csumUpdate hc (old₁ ++ old₂) new = csumUpdate hc (old₂ ++ old₁) new) ∧
  (∀ (hc new₁ new₂ : Half) (old : Word), csumUpdate hc old (new₁ ++ new₂) = csumUpdate hc old (new₂ ++ new₁))

/-! ### Checksum Updater -/

/-- R126. `CSUMIP` completes when its header view fits: the two checksum bytes hold the updated value, no other byte changes. -/
def Obligations.CsumipUpdatesChecksumInPlace : Prop :=
  ∀ (v : Nat) (old new : Word) (s : State), s.bounds.start + v + 20 ≤ s.bounds.stop →
    ∃ t, exec (.csumip v old new) s = .next t ∧
      t.frame.read16 (s.bounds.start + v + 10) = csumUpdate (s.frame.read16 (s.bounds.start + v + 10)) old new ∧
      SameBytesOutside (s.bounds.start + v + 10) 2 s.frame t.frame ∧
      t.responses = s.responses ++ [⟨.done, .ok, 0, 0, 0, 0⟩] ∧
      t.bounds = { start := 0, stop := 0 } ∧ t.host = s.host ∧ t.draws = s.draws

/-- R129. `CSUMUDP` completes in every state, whatever the bounds: `RES0` is the updated value, nothing else changes. -/
def Obligations.CsumudpReturnsUpdatedValue : Prop :=
  ∀ (c : Half) (old new : Word) (s : State),
    exec (.csumudp c old new) s =
      .next { s with bounds := { start := 0, stop := 0 },
                     responses := s.responses ++ [⟨.done, .ok, csumUpdate c old new, 0, 0, 0⟩] }

/-- R131 (b), R124. The copy of a new field at an even header offset outside the checksum word, then `CSUMIP` with the old and the new
value, keep a header whose stored checksum is its from-scratch checksum so. -/
def Obligations.CopyThenCsumipKeepsHeaderChecksum : Prop :=
  ∀ (s t u : State) (v : Nat) (k : Nat) (new : Word), s.bounds.start + v + 20 ≤ s.bounds.stop →
    k ∈ [0, 2, 4, 6, 12, 14, 16] →
    s.frame.read (s.bounds.start + v) ≠ 0 → ChecksumCorrect s.frame (s.bounds.start + v) →
    exec (.addrcpyImm (v + k) new) s = .next t → t.frame.read (s.bounds.start + v) ≠ 0 →
    exec (.csumip v (s.frame.read32 (s.bounds.start + v + k)) new) { t with bounds := s.bounds } = .next u →
    ChecksumCorrect u.frame (s.bounds.start + v)

/-- R131 (b), R124, R168 (a). The same where the new field comes from a view: its value is the source's before the copy, overlap or not. -/
def Obligations.CopyViewThenCsumipKeepsHeaderChecksum : Prop :=
  ∀ (s t u : State) (v : Nat) (k src : Nat), s.bounds.start + v + 20 ≤ s.bounds.stop →
    s.bounds.start + src + 4 ≤ s.bounds.stop → k ∈ [0, 2, 4, 6, 12, 14, 16] →
    s.frame.read (s.bounds.start + v) ≠ 0 → ChecksumCorrect s.frame (s.bounds.start + v) →
    exec (.addrcpyView (v + k) src) s = .next t → t.frame.read (s.bounds.start + v) ≠ 0 →
    exec (.csumip v (s.frame.read32 (s.bounds.start + v + k)) (s.frame.read32 (s.bounds.start + src)))
      { t with bounds := s.bounds } = .next u →
    ChecksumCorrect u.frame (s.bounds.start + v)

/-! ### Lifetime Manager -/

/-- R142. `TTLDEC` completes when its header view fits and the time-to-live is not 0: the checksum plus `0x0100` with one end-around
carry, the time-to-live one less, no other byte changed. -/
def Obligations.TtldecDecrementsWithChecksum : Prop :=
  ∀ (v : Nat) (s : State), s.bounds.start + v + 20 ≤ s.bounds.stop → s.frame.read (s.bounds.start + v + 8) ≠ 0 →
    ∃ t, exec (.ttldec v) s = .next t ∧
      (t.frame.read (s.bounds.start + v + 8)).toNat = (s.frame.read (s.bounds.start + v + 8)).toNat - 1 ∧
      (t.frame.read16 (s.bounds.start + v + 10)).toNat =
        (let x := (s.frame.read16 (s.bounds.start + v + 10)).toNat + 0x0100
         x % 2 ^ 16 + x / 2 ^ 16) ∧
      (∀ x, x ≠ s.bounds.start + v + 8 → x ≠ s.bounds.start + v + 10 → x ≠ s.bounds.start + v + 11 →
        t.frame.read x = s.frame.read x) ∧
      t.responses = s.responses ++ [⟨.done, .ok, 0, 0, 0, 0⟩] ∧
      t.bounds = { start := 0, stop := 0 } ∧ t.host = s.host ∧ t.draws = s.draws

/-- R143, R183, R186. A time-to-live of 0 ends `TTLDEC` with `ERR_TTL0` and no write. That the empty port is then written as bounds of
zero (log entry 2) and the zero `OUTCOME` as `ok` (log entry 16) is the model's. -/
def Obligations.TtldecRefusesExpiredHeader : Prop :=
  ∀ (v : Nat) (s : State), s.bounds.start + v + 20 ≤ s.bounds.stop → s.frame.read (s.bounds.start + v + 8) = 0 →
    exec (.ttldec v) s = .next { s with bounds := { start := 0, stop := 0 },
                                        responses := s.responses ++ [⟨.errTtl0, .ok, 0, 0, 0, 0⟩] }

/-- R144. Either `TTLDEC` ends with `DONE` and both effects have happened, or it ends with a fault and neither has. -/
def Obligations.TtldecBothEffectsOrNeither : Prop :=
  ∀ (v : Nat) (s t : State) (r : Response), exec (.ttldec v) s = .next t → t.responses = s.responses ++ [r] →
    (r.status = .done ∧
      t.frame.read (s.bounds.start + v + 8) = s.frame.read (s.bounds.start + v + 8) - 1 ∧
      t.frame.read16 (s.bounds.start + v + 10) = ocadd16 (s.frame.read16 (s.bounds.start + v + 10)) 0x0100 ∧
      t.frame.read (s.bounds.start + v + 8) ≠ s.frame.read (s.bounds.start + v + 8) ∧
      t.frame.read16 (s.bounds.start + v + 10) ≠ s.frame.read16 (s.bounds.start + v + 10)) ∨
    (r.status ≠ .done ∧ t.frame = s.frame)

/-- R145. The checksum of `TTLDEC` is one's-complement addition of `0x0100`, one fold being enough. -/
def Obligations.TtlShortcutIsOnesComplement : Prop :=
  ∀ hc : Half, ttlCsum hc = ocadd16 hc 0x0100 ∧
    (ttlCsum hc).toNat = (hc.toNat + 0x0100) % 2 ^ 16 + (hc.toNat + 0x0100) / 2 ^ 16

/-- R147. `TTLDEC` keeps a correct header checksum correct, but where the old checksum is `0xFEFF`: there it stores `0xFFFF` and
recomputation gives `0x0000`. -/
def Obligations.TtldecKeepsHeaderChecksum : Prop :=
  ∀ (v : Nat) (s t : State), s.bounds.start + v + 20 ≤ s.bounds.stop →
    s.frame.read (s.bounds.start + v) ≠ 0 → s.frame.read (s.bounds.start + v + 8) ≠ 0 →
    ChecksumCorrect s.frame (s.bounds.start + v) → exec (.ttldec v) s = .next t →
    (s.frame.read16 (s.bounds.start + v + 10) ≠ 0xFEFF → ChecksumCorrect t.frame (s.bounds.start + v)) ∧
    (s.frame.read16 (s.bounds.start + v + 10) = 0xFEFF →
      t.frame.read16 (s.bounds.start + v + 10) = 0xFFFF ∧ ipChecksumFull t.frame (s.bounds.start + v) = 0x0000)

/-- R148. The shortcut and `csum_update` on the word `w_4` agree at every checksum but `0xFEFF`. -/
def Obligations.TtlShortcutVersusUpdate : Prop :=
  ∀ (hc x w : Half), 0x0100 ≤ w.toNat →
    (hc ≠ 0xFEFF → csumUpdate hc (x ++ w) (x ++ (w - 0x0100)) = ttlCsum hc) ∧
    (hc = 0xFEFF → csumUpdate hc (x ++ w) (x ++ (w - 0x0100)) = 0x0000 ∧ ttlCsum hc = 0xFFFF)

/-- R223. `CSUMIP`'s and `TTLDEC`'s changes of a checksum commute, but where the final checksum denotes zero. -/
def Obligations.UpdateAndDecrementCommute : Prop :=
  ∀ (hc : Half) (old new : Word),
    ttlCsum (csumUpdate hc old new) = csumUpdate (ttlCsum hc) old new ∨
    (ttlCsum (csumUpdate hc old new) = 0xFFFF ∧ csumUpdate (ttlCsum hc) old new = 0x0000)

/-! ### Address Utility -/

/-- R162, R163. `ADDREQ` completes when its views fit, in each of its four forms: `RES0` is 1 when the two addresses are equal in all four
bytes and 0 when not, and nothing else changes. A value's byte `i` is its bits from `24 - 8 i` up (R69). -/
def Obligations.AddreqComparesFourBytes : Prop :=
  ∀ s : State,
    let answer (res0 : Half) : Host.Outcome State Fault Refusal :=
      .next { s with bounds := { start := 0, stop := 0 }, responses := s.responses ++ [⟨.done, .ok, res0, 0, 0, 0⟩] }
    let frameByte (v : Nat) (i : Nat) : Byte := s.frame.read (s.bounds.start + v + i)
    let valueByte (x : Word) (i : Nat) : Byte := x.extractLsb' (24 - 8 * i) 8
    (∀ a b : Word, exec (.addreqImmImm a b) s = answer (if ∀ i : Fin 4, valueByte a i = valueByte b i then 1 else 0)) ∧
    (∀ (a : Nat) (b : Word), s.bounds.start + a + 4 ≤ s.bounds.stop →
      exec (.addreqViewImm a b) s = answer (if ∀ i : Fin 4, frameByte a i = valueByte b i then 1 else 0)) ∧
    (∀ (a : Word) (b : Nat), s.bounds.start + b + 4 ≤ s.bounds.stop →
      exec (.addreqImmView a b) s = answer (if ∀ i : Fin 4, valueByte a i = frameByte b i then 1 else 0)) ∧
    (∀ a b : Nat, s.bounds.start + a + 4 ≤ s.bounds.stop → s.bounds.start + b + 4 ≤ s.bounds.stop →
      exec (.addreqViewView a b) s = answer (if ∀ i : Fin 4, frameByte a i = frameByte b i then 1 else 0))

/-- R165. `ADDREQ` is reflexive and symmetric over values and views. -/
def Obligations.AddreqReflexiveSymmetric : Prop :=
  (∀ (x : Word) (s : State), ∃ t, exec (.addreqImmImm x x) s = .next t ∧
    t.responses = s.responses ++ [⟨.done, .ok, 1, 0, 0, 0⟩]) ∧
  (∀ (v : Nat) (s : State), s.bounds.start + v + 4 ≤ s.bounds.stop → ∃ t, exec (.addreqViewView v v) s = .next t ∧
    t.responses = s.responses ++ [⟨.done, .ok, 1, 0, 0, 0⟩]) ∧
  (∀ (x y : Word) (s : State), exec (.addreqImmImm x y) s = exec (.addreqImmImm y x) s) ∧
  (∀ (v : Nat) (y : Word) (s : State), exec (.addreqViewImm v y) s = exec (.addreqImmView y v) s) ∧
  (∀ (v w : Nat) (s : State), exec (.addreqViewView v w) s = exec (.addreqViewView w v) s)

/-- R167, R168 (a). `ADDRCPY` completes when its views fit: the four destination bytes hold the value, or the four source bytes as they
were before the command, and no other byte changes. -/
def Obligations.AddrcpyWritesFourBytes : Prop :=
  ∀ (d : Nat) (s : State), s.bounds.start + d + 4 ≤ s.bounds.stop →
    (∀ src : Word, ∃ t, exec (.addrcpyImm d src) s = .next t ∧
      (∀ i : Fin 4, t.frame.read (s.bounds.start + d + i) = src.extractLsb' (24 - 8 * i) 8) ∧
      SameBytesOutside (s.bounds.start + d) 4 s.frame t.frame ∧
      t.responses = s.responses ++ [⟨.done, .ok, 0, 0, 0, 0⟩] ∧
      t.bounds = { start := 0, stop := 0 } ∧ t.host = s.host ∧ t.draws = s.draws) ∧
    (∀ src : Nat, s.bounds.start + src + 4 ≤ s.bounds.stop → ∃ t, exec (.addrcpyView d src) s = .next t ∧
      (∀ i : Fin 4, t.frame.read (s.bounds.start + d + i) = s.frame.read (s.bounds.start + src + i)) ∧
      SameBytesOutside (s.bounds.start + d) 4 s.frame t.frame ∧
      t.responses = s.responses ++ [⟨.done, .ok, 0, 0, 0, 0⟩] ∧
      t.bounds = { start := 0, stop := 0 } ∧ t.host = s.host ∧ t.draws = s.draws)

/-- R169. A copy that ends with `DONE`, then a comparison under the same bounds and source, finds them equal, provided a source view
does not partly overlap the destination. -/
def Obligations.CopyThenCompareIsEqual : Prop :=
  (∀ (d : Nat) (src : Word) (s t : State), exec (.addrcpyImm d src) s = .next t →
    t.responses = s.responses ++ [⟨.done, .ok, 0, 0, 0, 0⟩] →
    ∃ u, exec (.addreqViewImm d src) { t with bounds := s.bounds } = .next u ∧
      u.responses = t.responses ++ [⟨.done, .ok, 1, 0, 0, 0⟩]) ∧
  (∀ (d src : Nat) (s t : State), exec (.addrcpyView d src) s = .next t →
    t.responses = s.responses ++ [⟨.done, .ok, 0, 0, 0, 0⟩] → (src = d ∨ src + 4 ≤ d ∨ d + 4 ≤ src) →
    ∃ u, exec (.addreqViewView d src) { t with bounds := s.bounds } = .next u ∧
      u.responses = t.responses ++ [⟨.done, .ok, 1, 0, 0, 0⟩])

/-- R132. `CSUMIP` may come before or after the `ADDRCPY` of a field of the header outside the checksum: the bytes and the responses are
the same. -/
def Obligations.CsumipCommutesWithCopy : Prop :=
  ∀ (s t t' u u' : State) (v d : Nat) (old new src : Word), s.bounds.start + v + 20 ≤ s.bounds.stop →
    s.bounds.start + d + 4 ≤ s.bounds.stop → (d + 4 ≤ v + 10 ∨ v + 12 ≤ d) →
    exec (.csumip v old new) s = .next t → exec (.addrcpyImm d src) { t with bounds := s.bounds } = .next u →
    exec (.addrcpyImm d src) s = .next t' → exec (.csumip v old new) { t' with bounds := s.bounds } = .next u' →
    SameBytes u.frame u'.frame ∧ u.responses = u'.responses

/-! ### Command faults -/

/-- R185. `ERR_BOUNDS` exactly where a view operand does not fit, before any access: nothing but the response is new. -/
def Obligations.BoundsFaultIffViewOutside : Prop :=
  ∀ (i : Instr) (s : State),
    (¬ ViewsFit s i → exec i s = .next { s with bounds := { start := 0, stop := 0 },
                                                 responses := s.responses ++ [⟨.errBounds, .ok, 0, 0, 0, 0⟩] }) ∧
    (ViewsFit s i → ∃ t r, exec i s = .next t ∧ t.responses = s.responses ++ [r] ∧ r.status ≠ .errBounds)

/-- R183. An invocation, of whatever command word, that ends with a fault status has no effect but its response, all of whose other
fields are zero: the frame buffer is as before and nothing of the fault is kept. That the empty port is then written as bounds of zero
(log entry 2) and the zero `OUTCOME` as `ok` (log entry 16) is the model's. -/
def Obligations.CommandFaultsChangeNothing : Prop :=
  ∀ (s t : State) (b : Bounds) (w : CmdWord) (rest : List HostEvent) (r : Response), s.host = .invoke b w :: rest →
    step s = .next t → t.responses = s.responses ++ [r] → r.status ≠ .done →
    t = { s with host := rest, bounds := { start := 0, stop := 0 },
                 responses := s.responses ++ [⟨r.status, .ok, 0, 0, 0, 0⟩] }

/-! ### The response word -/

/-- R75. The fields of the response word. -/
def Obligations.ResponseWordLayout : Prop :=
  ∀ r : Response, r.word.extractLsb' 0 4 = r.status.code ∧ r.word.extractLsb' 4 4 = r.outcome.code ∧
    r.word.extractLsb' 8 16 = r.res0 ∧ r.word.extractLsb' 24 16 = r.res1 ∧
    r.word.extractLsb' 40 16 = r.res2 ∧ r.word.extractLsb' 56 16 = r.res3

/-- R76, R77. The outcome and status codes; codes 8 to 15 and 4 to 15 are never produced. -/
def Obligations.OutcomeAndStatusCodes : Prop :=
  (ParseOutcome.code .ok = 0 ∧ ParseOutcome.code .notIPv4 = 1 ∧ ParseOutcome.code .invalidIPSize = 2 ∧
    ParseOutcome.code .tooSmallIPHeader = 3 ∧ ParseOutcome.code .tooBigIPHeader = 4 ∧
    ParseOutcome.code .fragmentedIPPacket = 5 ∧ ParseOutcome.code .notUDP = 6 ∧ ParseOutcome.code .lifetimeExpired = 7) ∧
  (Status.code .done = 0 ∧ Status.code .errIllegal = 1 ∧ Status.code .errBounds = 2 ∧ Status.code .errTtl0 = 3) ∧
  (∀ o : ParseOutcome, o.code.toNat ≤ 7) ∧ (∀ c : Status, c.code.toNat ≤ 3)

/-- R78. The result fields of every command, by its status. -/
def Obligations.ResultFieldsByCommand : Prop :=
  ∀ (i : Instr) (s t : State) (r : Response), exec i s = .next t → t.responses = s.responses ++ [r] →
    (r.status ≠ .done → r.outcome = .ok ∧ r.res0 = 0 ∧ r.res1 = 0 ∧ r.res2 = 0 ∧ r.res3 = 0) ∧
    (r.status = .done →
      (i = .parse → r.outcome = .ok → r.res0 = 14 ∧ r.res1 = 34 ∧ r.res2 = 26 ∧ r.res3 = 30) ∧
      (i = .parse → r.outcome ≠ .ok → r.res0 = Config.any16 s.draws ∧ r.res1 = Config.any16 (s.draws + 1) ∧
        r.res2 = Config.any16 (s.draws + 2) ∧ r.res3 = Config.any16 (s.draws + 3)) ∧
      (i ≠ .parse → r.outcome = .ok ∧ r.res1 = 0 ∧ r.res2 = 0 ∧ r.res3 = 0) ∧
      match i with
      | .parse => True
      | .csumip _ _ _ => r.res0 = 0
      | .csumudp c old new => r.res0 = csumUpdate c old new
      | .ttldec _ => r.res0 = 0
      | .addreqImmImm a b => r.res0 = if a = b then 1 else 0
      | .addreqViewImm a b => r.res0 = if s.frame.read32 (s.bounds.start + a) = b then 1 else 0
      | .addreqImmView a b => r.res0 = if a = s.frame.read32 (s.bounds.start + b) then 1 else 0
      | .addreqViewView a b =>
        r.res0 = if s.frame.read32 (s.bounds.start + a) = s.frame.read32 (s.bounds.start + b) then 1 else 0
      | .addrcpyImm _ _ => r.res0 = 0
      | .addrcpyView _ _ => r.res0 = 0)

/-! ### The frame buffer -/

/-- R46. A write of 1, 2 or 4 bytes puts the most significant byte at the lowest address and changes no other byte. -/
def Obligations.MemWriteIsBigEndian : Prop :=
  (∀ (m : Memory) (a : Nat) (b : Byte), (m.write a b).read a = b ∧ ∀ x, x ≠ a → (m.write a b).read x = m.read x) ∧
  (∀ (m : Memory) (a : Nat) (v : Half),
    (∀ i : Fin 2, (m.write16 a v).read (a + i) = v.extractLsb' (8 * (1 - i)) 8) ∧ SameBytesOutside a 2 m (m.write16 a v)) ∧
  (∀ (m : Memory) (a : Nat) (v : Word),
    (∀ i : Fin 4, (m.write32 a v).read (a + i) = v.extractLsb' (8 * (3 - i)) 8) ∧ SameBytesOutside a 4 m (m.write32 a v))

/-- R44, R45. A read of 2 or 4 bytes as a number. -/
def Obligations.MemReadIsBigEndian : Prop :=
  ∀ (m : Memory) (a : Nat),
    (m.read16 a).toNat = (m.read a).toNat * 256 + (m.read (a + 1)).toNat ∧
    (m.read32 a).toNat = (m.read a).toNat * 2 ^ 24 + (m.read (a + 1)).toNat * 2 ^ 16 + (m.read (a + 2)).toNat * 2 ^ 8
      + (m.read (a + 3)).toNat

/-- R42. What the bounds guard says and its consequences. -/
def Obligations.BoundsGuard : Prop :=
  ∀ (b : Bounds) (off n : Nat), 1 ≤ n →
    (b.fits off n ↔ b.start + off + n ≤ b.stop) ∧
    (b.stop ≤ b.start → ¬ b.fits off n) ∧
    (b.fits off n → ∀ k, k < n → b.start ≤ b.start + off + k ∧ b.start + off + k < b.stop) ∧
    (b.InSpace → b.fits off n → ∀ k, k < n → b.start + off + k < 2 ^ Config.fbAw)

/-- R43. No byte outside the bounds of an invocation changes, whatever its command word. -/
def Obligations.InvocationWritesInsideBounds : Prop :=
  ∀ (s t : State) (b : Bounds) (w : CmdWord) (rest : List HostEvent), s.host = .invoke b w :: rest → step s = .next t →
    ∀ a, (a < b.start ∨ b.stop ≤ a) → t.frame.read a = s.frame.read a

/-- R43. No byte outside the bounds of an invocation can be learnt from it: of two states that differ only in such bytes, the responses,
the draws and the bytes inside the bounds are the same after it. -/
def Obligations.InvocationReadsInsideBounds : Prop :=
  ∀ (s s' t t' : State) (b : Bounds) (w : CmdWord) (rest : List HostEvent),
    s.host = .invoke b w :: rest → s'.host = .invoke b w :: rest → s.responses = s'.responses → s.draws = s'.draws →
    AgreeInside b s.frame s'.frame → step s = .next t → step s' = .next t' →
    t.responses = t'.responses ∧ t.draws = t'.draws ∧ AgreeInside b t.frame t'.frame

/-! ### Invariants of every step -/

/-- Every step keeps the memory's canonical form (the model's representation of R24's frame buffer, log entry 1). -/
def Obligations.StepKeepsFrameCanonical : Prop :=
  ∀ s t : State, s.frame.wf → step s = .next t → t.frame.wf

/-- R8, R40, R42. Every step keeps every address of the state below `2^FB_AW`. -/
def Obligations.StepKeepsAddressesInSpace : Prop :=
  ∀ s t : State, s.InRange → step s = .next t → t.InRange

/-- Both invariants hold after reset. -/
def Obligations.ResetMeetsInvariants : Prop :=
  State.reset.frame.wf ∧ State.reset.InRange

/-- R23, R27, R210. The block does not remember the bounds: a command ends with an empty port, and from an idle state every step leads to
an idle state. -/
def Obligations.BlockIsIdleBetweenSteps : Prop :=
  (∀ (i : Instr) (s t : State), exec i s = .next t → t.bounds = { start := 0, stop := 0 }) ∧
  (∀ s t : State, s.bounds = { start := 0, stop := 0 } → step s = .next t → t.bounds = { start := 0, stop := 0 })

/-- R20, R22, R190. The block keeps nothing of earlier invocations: what a step does to the frame buffer and what it answers depend only on
the frame buffer, the host's events and the supply of free values, not on the responses given before. -/
def Obligations.NothingSurvivesAnInvocation : Prop :=
  ∀ (s s' t t' : State), s.frame = s'.frame → s.host = s'.host → s.draws = s'.draws →
    step s = .next t → step s' = .next t' →
    t.frame = t'.frame ∧ t.host = t'.host ∧ t.draws = t'.draws ∧
    ∃ new, t.responses = s.responses ++ new ∧ t'.responses = s'.responses ++ new

/-! ### Reset and the host -/

/-- R30, R210. The state after reset: idle, nothing on either port. That an empty command port is written as bounds of zero, and that the
host's list starts empty, are the model's choices (log entries 2 and 4). -/
def Obligations.ResetIsIdle : Prop :=
  State.reset.bounds = { start := 0, stop := 0 } ∧ State.reset.host = [] ∧ State.reset.responses = []

/-- R30, R196; that an idle step changes nothing is the model's choice (log entry 4). -/
def Obligations.IdleBlockStaysIdle : Prop :=
  ∀ s : State, s.host = [] → step s = .next s

/-- R210, R211. A reset between invocations leaves the block idle and the frame buffer as it was. -/
def Obligations.ResetLeavesFrameBuffer : Prop :=
  ∀ (s : State) (rest : List HostEvent), s.host = .reset :: rest →
    step s = .next { s with host := rest, bounds := { start := 0, stop := 0 } }

/-- R222 H2, R53 (d). A host write changes its own byte and nothing else, so the next invocation sees it. -/
def Obligations.HostWriteIsSeen : Prop :=
  ∀ (s : State) (a : Nat) (v : Byte) (rest : List HostEvent), s.host = .write a v :: rest →
    ∃ t, step s = .next t ∧ t.frame.read a = v ∧ (∀ x, x ≠ a → t.frame.read x = s.frame.read x) ∧
      t.host = rest ∧ t.bounds = s.bounds ∧ t.responses = s.responses ∧ t.draws = s.draws

/-- R212; that the write set does not depend on the time-to-live, and is empty where a guard fails, is the model's reading (log entry 8).
An invocation cut by reset gives no response, and only the bytes its command could write may differ afterwards. -/
def Obligations.CutInvocationLosesOnlyItsWriteSet : Prop :=
  ∀ (s : State) (b : Bounds) (w : CmdWord) (rest : List HostEvent), s.host = .cut b w :: rest →
    ∃ t, step s = .next t ∧ t.responses = s.responses ∧ t.host = rest ∧ t.bounds = { start := 0, stop := 0 } ∧
      match decode w with
      | .ok (.csumip v _ _) => SameBytesOutside (b.start + v + 10) 2 s.frame t.frame
      | .ok (.ttldec v) => ∀ x, x ≠ b.start + v + 8 → x ≠ b.start + v + 10 → x ≠ b.start + v + 11 →
          t.frame.read x = s.frame.read x
      | .ok (.addrcpyImm d _) => SameBytesOutside (b.start + d) 4 s.frame t.frame
      | .ok (.addrcpyView d _) => SameBytesOutside (b.start + d) 4 s.frame t.frame
      | _ => t.frame = s.frame
end

