-- ==== Sys2Proof/Laws/Memory.lean ====
section
/-! SUPPORT. The laws of the frame buffer: a read after a write, the bytes a write leaves alone, the canonical form. -/

namespace Sys2Proof.Machine

theorem read_forget_same (m : Memory) (a : Nat) : (m.forget a).read a = Config.unlistedByte := by
  induction m with
  | nil => rfl
  | cons c rest ih =>
    by_cases h : c.1 = a
    · simpa [Memory.forget, h] using ih
    · simpa [Memory.forget, Memory.read, h] using ih

theorem read_forget_other (m : Memory) {a x : Nat} (h : x ≠ a) : (m.forget a).read x = m.read x := by
  induction m with
  | nil => rfl
  | cons c rest ih =>
    simp only [Memory.forget] at ih
    by_cases hc : c.1 = a
    · simp [Memory.forget, Memory.read, hc, ih, Ne.symm h]
    · simp [Memory.forget, Memory.read, hc, ih]

theorem read_place_same (m : Memory) (a : Nat) (b : Byte) (h : ∀ c ∈ m, c.1 ≠ a) : (m.place a b).read a = b := by
  induction m with
  | nil => simp [Memory.place, Memory.read]
  | cons c rest ih =>
    have hc := h c List.mem_cons_self
    have hr := ih fun d hd => h d (List.mem_cons_of_mem c hd)
    by_cases hlt : a < c.1 <;> simp [Memory.place, Memory.read, hlt, hc, hr]

theorem read_place_other (m : Memory) {a x : Nat} (b : Byte) (h : x ≠ a) : (m.place a b).read x = m.read x := by
  induction m with
  | nil => simp [Memory.place, Memory.read, Ne.symm h]
  | cons c rest ih =>
    by_cases hlt : a < c.1 <;> simp [Memory.place, Memory.read, hlt, ih, Ne.symm h]

theorem forget_lacks (m : Memory) (a : Nat) : ∀ c ∈ m.forget a, c.1 ≠ a := by
  intro c hc
  simpa using (List.mem_filter.mp hc).2

/-- A read of the byte written gives the value written, in every memory. -/
@[simp] theorem read_write_same (m : Memory) (a : Nat) (b : Byte) : (m.write a b).read a = b := by
  unfold Memory.write
  split
  · next h => rw [read_forget_same, h]
  · exact read_place_same _ a b (forget_lacks m a)

/-- A write leaves every other byte alone. -/
theorem read_write_other (m : Memory) {a x : Nat} (b : Byte) (h : x ≠ a) : (m.write a b).read x = m.read x := by
  unfold Memory.write
  split
  · exact read_forget_other m h
  · rw [read_place_other _ b h, read_forget_other m h]

/-- Both cases of a read after a write at once. -/
theorem read_write (m : Memory) (a x : Nat) (b : Byte) : (m.write a b).read x = if x = a then b else m.read x := by
  split
  · next h => rw [h, read_write_same]
  · next h => exact read_write_other m b h

theorem mem_place {m : Memory} {a : Nat} {b : Byte} {c : Host.Cell} (h : c ∈ m.place a b) : c = (a, b) ∨ c ∈ m := by
  induction m with
  | nil => simpa [Memory.place] using h
  | cons d rest ih =>
    by_cases hlt : a < d.1
    · simpa [Memory.place, hlt] using h
    · simp only [Memory.place, hlt, if_false, List.mem_cons] at h
      rcases h with rfl | h
      · simp
      · rcases ih h with h | h <;> simp [h]

/-- Every cell after a write is the one written or was there before. -/
theorem mem_write {m : Memory} {a : Nat} {b : Byte} {c : Host.Cell} (h : c ∈ m.write a b) : c = (a, b) ∨ c ∈ m := by
  unfold Memory.write at h
  split at h
  · exact .inr (List.mem_of_mem_filter h)
  · exact (mem_place h).imp_right List.mem_of_mem_filter

theorem place_rising {m : Memory} (a : Nat) (b : Byte) (hm : m.Pairwise (fun c d => c.1 < d.1))
    (ha : ∀ c ∈ m, c.1 ≠ a) : (m.place a b).Pairwise (fun c d => c.1 < d.1) := by
  induction m with
  | nil => simp [Memory.place]
  | cons c rest ih =>
    obtain ⟨hc, hrest⟩ := List.pairwise_cons.mp hm
    by_cases hlt : a < c.1
    · simp only [Memory.place, hlt, if_true, List.pairwise_cons]
      refine ⟨fun d hd => ?_, hc, hrest⟩
      rcases List.mem_cons.mp hd with rfl | hd
      · exact hlt
      · exact hlt.trans (hc d hd)
    · have hne := ha c List.mem_cons_self
      simp only [Memory.place, hlt, if_false, List.pairwise_cons]
      refine ⟨fun d hd => ?_, ih hrest fun d hd => ha d (List.mem_cons_of_mem c hd)⟩
      rcases mem_place hd with rfl | hd
      · show c.1 < a
        omega
      · exact hc d hd

/-- A write keeps the canonical form. -/
theorem write_wf {m : Memory} (a : Nat) (b : Byte) (h : m.wf) : (m.write a b).wf := by
  have hf : (m.forget a).Pairwise (fun c d => c.1 < d.1) := h.1.sublist List.filter_sublist
  refine ⟨?_, fun c hc => ?_⟩
  · unfold Memory.write
    split
    · exact hf
    · exact place_rising a b hf (forget_lacks m a)
  · unfold Memory.write at hc
    split at hc
    · exact h.2 c (List.mem_of_mem_filter hc)
    · next hb =>
      rcases mem_place hc with rfl | hc
      · exact hb
      · exact h.2 c (List.mem_of_mem_filter hc)

theorem write16_wf {m : Memory} (a : Nat) (v : Half) (h : m.wf) : (m.write16 a v).wf :=
  write_wf _ _ (write_wf _ _ h)

theorem write32_wf {m : Memory} (a : Nat) (v : Word) (h : m.wf) : (m.write32 a v).wf :=
  write_wf _ _ (write_wf _ _ (write_wf _ _ (write_wf _ _ h)))

/-- A two-byte write leaves every byte but its own two alone. -/
theorem read_write16_other (m : Memory) {a x : Nat} (v : Half) (h : x < a ∨ a + 2 ≤ x) :
    (m.write16 a v).read x = m.read x := by
  rw [Memory.write16, read_write_other _ _ (by omega), read_write_other _ _ (by omega)]

/-- A four-byte write leaves every byte but its own four alone. -/
theorem read_write32_other (m : Memory) {a x : Nat} (v : Word) (h : x < a ∨ a + 4 ≤ x) :
    (m.write32 a v).read x = m.read x := by
  rw [Memory.write32, read_write_other _ _ (by omega), read_write_other _ _ (by omega),
    read_write_other _ _ (by omega), read_write_other _ _ (by omega)]

/-- The two bytes of a 16-bit value joined again. -/
theorem join16 (v : Half) : (v.extractLsb' 8 8 ++ v.extractLsb' 0 8 : Half) = v := by
  apply BitVec.eq_of_getElem_eq
  intro i hi
  simp only [BitVec.getElem_append, BitVec.getElem_extractLsb']
  split
  · simp [hi]
  · rw [show 8 + (i - 8) = i by omega]
    simp [hi]

/-- The four bytes of a 32-bit value joined again. -/
theorem join32 (v : Word) :
    (v.extractLsb' 24 8 ++ v.extractLsb' 16 8 ++ v.extractLsb' 8 8 ++ v.extractLsb' 0 8 : Word) = v := by
  apply BitVec.eq_of_getElem_eq
  intro i hi
  simp only [BitVec.getElem_append, BitVec.getElem_extractLsb']
  split
  · simp [hi]
  split
  · rw [show 8 + (i - 8) = i by omega]
    simp [hi]
  split
  · rw [show 16 + (i - 8 - 8) = i by omega]
    simp [hi]
  · rw [show 24 + (i - 8 - 8 - 8) = i by omega]
    simp [hi]

/-- A two-byte read of what a two-byte write put there. -/
@[simp] theorem read16_write16_same (m : Memory) (a : Nat) (v : Half) : (m.write16 a v).read16 a = v := by
  rw [Memory.read16, Memory.write16, read_write_same, read_write_other _ _ (by omega), read_write_same, join16]

/-- A four-byte read of what a four-byte write put there. -/
@[simp] theorem read32_write32_same (m : Memory) (a : Nat) (v : Word) : (m.write32 a v).read32 a = v := by
  simp only [Memory.read32, Memory.write32, read_write]
  simpa using join32 v

theorem read16_congr {m m' : Memory} {a : Nat} (h0 : m.read a = m'.read a) (h1 : m.read (a + 1) = m'.read (a + 1)) :
    m.read16 a = m'.read16 a := by
  rw [Memory.read16, Memory.read16, h0, h1]

theorem read32_congr {m m' : Memory} {a : Nat} (h : ∀ i < 4, m.read (a + i) = m'.read (a + i)) :
    m.read32 a = m'.read32 a := by
  have h0 := h 0 (by omega)
  rw [Nat.add_zero] at h0
  rw [Memory.read32, Memory.read32, h0, h 1 (by omega), h 2 (by omega), h 3 (by omega)]

/-- Cells after a two-byte write. -/
theorem mem_write16 {m : Memory} {a : Nat} {v : Half} {c : Host.Cell} (h : c ∈ m.write16 a v) :
    c ∈ m ∨ (a ≤ c.1 ∧ c.1 < a + 2) := by
  rcases mem_write h with rfl | h
  · right; constructor <;> dsimp <;> omega
  rcases mem_write h with rfl | h
  · right; constructor <;> dsimp <;> omega
  · exact .inl h

/-- Cells after a four-byte write. -/
theorem mem_write32 {m : Memory} {a : Nat} {v : Word} {c : Host.Cell} (h : c ∈ m.write32 a v) :
    c ∈ m ∨ (a ≤ c.1 ∧ c.1 < a + 4) := by
  rcases mem_write h with rfl | h
  · right; constructor <;> dsimp <;> omega
  rcases mem_write h with rfl | h
  · right; constructor <;> dsimp <;> omega
  rcases mem_write h with rfl | h
  · right; constructor <;> dsimp <;> omega
  rcases mem_write h with rfl | h
  · right; constructor <;> dsimp <;> omega
  · exact .inl h

end Sys2Proof.Machine
end

