-- ==== Sys2Proof/Laws/State.lean ====
section
/-! SUPPORT. One lemma for each field of State under each update. -/

namespace Sys2Proof.Machine

variable (s : State)

@[simp] theorem store8_frame (off : Nat) (v : Byte) : (s.store8 off v).frame = s.frame.write (s.addr off) v := rfl
@[simp] theorem store8_bounds (off : Nat) (v : Byte) : (s.store8 off v).bounds = s.bounds := rfl
@[simp] theorem store8_host (off : Nat) (v : Byte) : (s.store8 off v).host = s.host := rfl
@[simp] theorem store8_responses (off : Nat) (v : Byte) : (s.store8 off v).responses = s.responses := rfl
@[simp] theorem store8_draws (off : Nat) (v : Byte) : (s.store8 off v).draws = s.draws := rfl

@[simp] theorem store16_frame (off : Nat) (v : Half) : (s.store16 off v).frame = s.frame.write16 (s.addr off) v := rfl
@[simp] theorem store16_bounds (off : Nat) (v : Half) : (s.store16 off v).bounds = s.bounds := rfl
@[simp] theorem store16_host (off : Nat) (v : Half) : (s.store16 off v).host = s.host := rfl
@[simp] theorem store16_responses (off : Nat) (v : Half) : (s.store16 off v).responses = s.responses := rfl
@[simp] theorem store16_draws (off : Nat) (v : Half) : (s.store16 off v).draws = s.draws := rfl

@[simp] theorem store32_frame (off : Nat) (v : Word) : (s.store32 off v).frame = s.frame.write32 (s.addr off) v := rfl
@[simp] theorem store32_bounds (off : Nat) (v : Word) : (s.store32 off v).bounds = s.bounds := rfl
@[simp] theorem store32_host (off : Nat) (v : Word) : (s.store32 off v).host = s.host := rfl
@[simp] theorem store32_responses (off : Nat) (v : Word) : (s.store32 off v).responses = s.responses := rfl
@[simp] theorem store32_draws (off : Nat) (v : Word) : (s.store32 off v).draws = s.draws := rfl

@[simp] theorem accept_frame (b : Bounds) (rest : List HostEvent) : (s.accept b rest).frame = s.frame := rfl
@[simp] theorem accept_bounds (b : Bounds) (rest : List HostEvent) : (s.accept b rest).bounds = b := rfl
@[simp] theorem accept_host (b : Bounds) (rest : List HostEvent) : (s.accept b rest).host = rest := rfl
@[simp] theorem accept_responses (b : Bounds) (rest : List HostEvent) : (s.accept b rest).responses = s.responses := rfl
@[simp] theorem accept_draws (b : Bounds) (rest : List HostEvent) : (s.accept b rest).draws = s.draws := rfl

@[simp] theorem respond_frame (r : Response) : (s.respond r).frame = s.frame := rfl
@[simp] theorem respond_bounds (r : Response) : (s.respond r).bounds = Bounds.idle := rfl
@[simp] theorem respond_host (r : Response) : (s.respond r).host = s.host := rfl
@[simp] theorem respond_responses (r : Response) : (s.respond r).responses = s.responses ++ [r] := rfl
@[simp] theorem respond_draws (r : Response) : (s.respond r).draws = s.draws := rfl

@[simp] theorem raise_frame (f : Status) : (s.raise f).frame = s.frame := rfl
@[simp] theorem raise_bounds (f : Status) : (s.raise f).bounds = Bounds.idle := rfl
@[simp] theorem raise_host (f : Status) : (s.raise f).host = s.host := rfl
@[simp] theorem raise_responses (f : Status) : (s.raise f).responses = s.responses ++ [Response.faulted f] := rfl
@[simp] theorem raise_draws (f : Status) : (s.raise f).draws = s.draws := rfl

@[simp] theorem respondRejected_frame (o : ParseOutcome) : (s.respondRejected o).frame = s.frame := rfl
@[simp] theorem respondRejected_bounds (o : ParseOutcome) : (s.respondRejected o).bounds = Bounds.idle := rfl
@[simp] theorem respondRejected_host (o : ParseOutcome) : (s.respondRejected o).host = s.host := rfl
@[simp] theorem respondRejected_responses (o : ParseOutcome) :
    (s.respondRejected o).responses = s.responses ++ [Response.rejected o s.draws] := rfl
@[simp] theorem respondRejected_draws (o : ParseOutcome) : (s.respondRejected o).draws = s.draws + 4 := rfl

@[simp] theorem decrementTtl_frame (v : Nat) : (s.decrementTtl v).frame =
    (s.frame.write16 (s.addr (v + 10)) (ttlCsum (s.load16 (v + 10)))).write (s.addr (v + 8)) (s.load8 (v + 8) - 1) := rfl
@[simp] theorem decrementTtl_bounds (v : Nat) : (s.decrementTtl v).bounds = s.bounds := rfl
@[simp] theorem decrementTtl_host (v : Nat) : (s.decrementTtl v).host = s.host := rfl
@[simp] theorem decrementTtl_responses (v : Nat) : (s.decrementTtl v).responses = s.responses := rfl
@[simp] theorem decrementTtl_draws (v : Nat) : (s.decrementTtl v).draws = s.draws := rfl

@[simp] theorem hostWrite_frame (a : Nat) (b : Byte) : (s.hostWrite a b).frame = s.frame.write a b := rfl
@[simp] theorem hostWrite_bounds (a : Nat) (b : Byte) : (s.hostWrite a b).bounds = s.bounds := rfl
@[simp] theorem hostWrite_host (a : Nat) (b : Byte) : (s.hostWrite a b).host = s.host := rfl
@[simp] theorem hostWrite_responses (a : Nat) (b : Byte) : (s.hostWrite a b).responses = s.responses := rfl
@[simp] theorem hostWrite_draws (a : Nat) (b : Byte) : (s.hostWrite a b).draws = s.draws := rfl

@[simp] theorem resetBlock_frame : s.resetBlock.frame = s.frame := rfl
@[simp] theorem resetBlock_bounds : s.resetBlock.bounds = Bounds.idle := rfl
@[simp] theorem resetBlock_host : s.resetBlock.host = s.host := rfl
@[simp] theorem resetBlock_responses : s.resetBlock.responses = s.responses := rfl
@[simp] theorem resetBlock_draws : s.resetBlock.draws = s.draws := rfl

/-- A read depends on the frame buffer and on `START` alone. -/
theorem load8_eq (off : Nat) : s.load8 off = s.frame.read (s.bounds.start + off) := rfl
theorem load16_eq (off : Nat) : s.load16 off = s.frame.read16 (s.bounds.start + off) := rfl
theorem load32_eq (off : Nat) : s.load32 off = s.frame.read32 (s.bounds.start + off) := rfl

end Sys2Proof.Machine
end

