-- ==== Sys2Proof/Laws/Effect.lean ====
section
/-! SUPPORT. Everything a command, an invocation cut by reset and a step can do, said once: which bytes they write, and that an
invocation ends with one response. -/

namespace Sys2Proof.Machine

/-- `m'` is `m` after some byte writes, each at an address inside the bounds. -/
inductive Writes (b : Bounds) (m : Memory) : Memory → Prop where
  | none : Writes b m m
  | byte {m' : Memory} (a : Nat) (v : Byte) : Writes b m m' → b.Holds a → Writes b m (m'.write a v)

namespace Writes

variable {b : Bounds} {m m' : Memory}

theorem wf (h : Writes b m m') (hm : m.wf) : m'.wf := by
  induction h with
  | none => exact hm
  | byte a v _ _ ih => exact write_wf a v ih

theorem outside (h : Writes b m m') {x : Nat} (hx : ¬ b.Holds x) : m'.read x = m.read x := by
  induction h with
  | none => rfl
  | byte a v _ ha ih =>
    have hne : x ≠ a := fun e => hx (e ▸ ha)
    rw [read_write_other _ _ hne, ih]

theorem cells (h : Writes b m m') {c : Host.Cell} (hc : c ∈ m') : c ∈ m ∨ b.Holds c.1 := by
  induction h with
  | none => exact .inl hc
  | byte a v _ ha ih =>
    rcases mem_write hc with rfl | hc
    · exact .inr ha
    · exact ih hc

theorem half (h : Writes b m m') (a : Nat) (v : Half) (h0 : b.Holds a) (h1 : b.Holds (a + 1)) :
    Writes b m (m'.write16 a v) := (h.byte a _ h0).byte _ _ h1

theorem word (h : Writes b m m') (a : Nat) (v : Word) (h0 : b.Holds a) (h3 : b.Holds (a + 3)) :
    Writes b m (m'.write32 a v) :=
  (((h.byte a _ h0).byte _ _ ⟨by have := h0.1; omega, by have := h3.2; omega⟩).byte _ _
    ⟨by have := h0.1; omega, by have := h3.2; omega⟩).byte _ _ h3

end Writes

/-- The state after an invocation: the frame `m`, an empty port, one response more, `k` free values more. -/
def State.after (s : State) (m : Memory) (r : Response) (k : Nat) : State :=
  { s with frame := m, bounds := Bounds.idle, responses := s.responses ++ [r], draws := s.draws + k }

@[simp] theorem after_frame (s : State) (m : Memory) (r : Response) (k : Nat) : (s.after m r k).frame = m := rfl
@[simp] theorem after_bounds (s : State) (m : Memory) (r : Response) (k : Nat) :
    (s.after m r k).bounds = Bounds.idle := rfl
@[simp] theorem after_host (s : State) (m : Memory) (r : Response) (k : Nat) : (s.after m r k).host = s.host := rfl
@[simp] theorem after_responses (s : State) (m : Memory) (r : Response) (k : Nat) :
    (s.after m r k).responses = s.responses ++ [r] := rfl
@[simp] theorem after_draws (s : State) (m : Memory) (r : Response) (k : Nat) :
    (s.after m r k).draws = s.draws + k := rfl

theorem raise_effect (s : State) (f : Status) : s.raise f = s.after s.frame (Response.faulted f) 0 := rfl

theorem compare_effect (s : State) (x y : AddrOperand) : ∃ r, s.compare x y = s.after s.frame r 0 := by
  unfold State.compare
  split
  · exact ⟨_, rfl⟩
  · exact ⟨_, rfl⟩

theorem copy_effect (s : State) (d : Nat) (x : AddrOperand) :
    ∃ m r, Writes s.bounds s.frame m ∧ s.copy d x = s.after m r 0 := by
  unfold State.copy
  split
  · next h =>
    have hd : s.addressFits d := by simpa [State.operandFits] using (Bool.and_eq_true_iff.mp h).1
    have hd : s.bounds.start + d + 4 ≤ s.bounds.stop := hd
    exact ⟨_, _, Writes.none.word (s.addr d) (s.addrVal x) ⟨by simp [State.addr], by simp only [State.addr]; omega⟩
      ⟨by simp only [State.addr]; omega, by simp only [State.addr]; omega⟩, rfl⟩
  · exact ⟨_, _, .none, rfl⟩

/-- Everything a command can do: it answers a next state in which some bytes inside its bounds have been written, the command port is
empty, exactly one response has been added, and the host's coming actions are as before. -/
theorem exec_effect (i : Instr) (s : State) :
    ∃ m r k, Writes s.bounds s.frame m ∧ exec i s = .next (s.after m r k) := by
  cases i with
  | parse =>
    simp only [exec, execParse]
    split
    · exact ⟨_, _, 0, .none, rfl⟩
    · exact ⟨_, _, 4, .none, rfl⟩
  | csumip v old new =>
    simp only [exec, execCsumip]
    split
    · next h =>
      have h : s.bounds.start + v + 20 ≤ s.bounds.stop := h
      exact ⟨_, _, 0, Writes.none.half (s.addr (v + 10)) _
        ⟨by simp only [State.addr]; omega, by simp only [State.addr]; omega⟩
        ⟨by simp only [State.addr]; omega, by simp only [State.addr]; omega⟩, rfl⟩
    · exact ⟨_, _, 0, .none, rfl⟩
  | csumudp c old new => exact ⟨_, _, 0, .none, rfl⟩
  | ttldec v =>
    simp only [exec, execTtldec]
    split
    · next h =>
      have h : s.bounds.start + v + 20 ≤ s.bounds.stop := h
      split
      · exact ⟨_, _, 0, .none, rfl⟩
      · exact ⟨_, _, 0, (Writes.none.half (s.addr (v + 10)) _
          ⟨by simp only [State.addr]; omega, by simp only [State.addr]; omega⟩
          ⟨by simp only [State.addr]; omega, by simp only [State.addr]; omega⟩).byte (s.addr (v + 8)) _
          ⟨by simp only [State.addr]; omega, by simp only [State.addr]; omega⟩, rfl⟩
    · exact ⟨_, _, 0, .none, rfl⟩
  | addreqImmImm a b => obtain ⟨r, h⟩ := compare_effect s (.imm a) (.imm b); exact ⟨_, r, 0, .none, congrArg _ h⟩
  | addreqViewImm a b => obtain ⟨r, h⟩ := compare_effect s (.view a) (.imm b); exact ⟨_, r, 0, .none, congrArg _ h⟩
  | addreqImmView a b => obtain ⟨r, h⟩ := compare_effect s (.imm a) (.view b); exact ⟨_, r, 0, .none, congrArg _ h⟩
  | addreqViewView a b => obtain ⟨r, h⟩ := compare_effect s (.view a) (.view b); exact ⟨_, r, 0, .none, congrArg _ h⟩
  | addrcpyImm d src => obtain ⟨m, r, hm, h⟩ := copy_effect s d (.imm src); exact ⟨m, r, 0, hm, congrArg _ h⟩
  | addrcpyView d src => obtain ⟨m, r, hm, h⟩ := copy_effect s d (.view src); exact ⟨m, r, 0, hm, congrArg _ h⟩

/-- The same of a command word, legal or not. -/
theorem runCommand_effect (cw : CmdWord) (s : State) :
    ∃ m r k, Writes s.bounds s.frame m ∧ runCommand cw s = .next (s.after m r k) := by
  unfold runCommand
  split
  · exact exec_effect _ s
  · exact ⟨_, _, 0, .none, rfl⟩

/-- A write set lies inside the bounds. -/
theorem writeSet_inside (s : State) (i : Instr) : ∀ a ∈ s.writeSet i, s.bounds.Holds a := by
  intro a ha
  cases i <;> simp only [State.writeSet] at ha
  case parse | csumudp | addreqImmImm | addreqViewImm | addreqImmView | addreqViewView => simp at ha
  case csumip v _ _ | ttldec v =>
    split at ha
    · next h =>
      have h : s.bounds.start + v + 20 ≤ s.bounds.stop := h
      simp only [List.mem_cons, List.not_mem_nil, or_false, State.addr] at ha
      constructor <;> omega
    · simp at ha
  case addrcpyImm d _ =>
    split at ha
    · next h =>
      have h : s.bounds.start + d + 4 ≤ s.bounds.stop := h
      simp only [List.mem_cons, List.not_mem_nil, or_false, State.addr] at ha
      constructor <;> omega
    · simp at ha
  case addrcpyView d _ =>
    split at ha
    · next h =>
      have h : s.bounds.start + d + 4 ≤ s.bounds.stop := h.1
      simp only [List.mem_cons, List.not_mem_nil, or_false, State.addr] at ha
      constructor <;> omega
    · simp at ha

theorem writeSetOf_inside (s : State) (cw : CmdWord) : ∀ a ∈ s.writeSetOf cw, s.bounds.Holds a := by
  unfold State.writeSetOf
  split
  · exact writeSet_inside s _
  · simp

/-- Scrambling writes the listed bytes and changes nothing but the frame and the count of draws. -/
theorem scramble_effect {l : List Nat} {s : State} {b : Bounds} {m : Memory} (hl : ∀ a ∈ l, b.Holds a)
    (hm : Writes b m s.frame) :
    ∃ m' k, Writes b m m' ∧ State.scramble l s = { s with frame := m', draws := s.draws + k } := by
  induction l generalizing s with
  | nil => exact ⟨s.frame, 0, hm, rfl⟩
  | cons a rest ih =>
    obtain ⟨m', k, hw, h⟩ := ih
      (s := { s with frame := s.frame.write a (Config.anyByte s.draws), draws := s.draws + 1 })
      (fun x hx => hl x (List.mem_cons_of_mem a hx)) (hm.byte a _ (hl a List.mem_cons_self))
    refine ⟨m', 1 + k, hw, ?_⟩
    rw [State.scramble, h]
    simp [Nat.add_assoc]

/-- Scrambling leaves every byte that is not listed alone. -/
theorem scramble_other {l : List Nat} {s : State} {x : Nat} (hx : x ∉ l) :
    (State.scramble l s).frame.read x = s.frame.read x := by
  induction l generalizing s with
  | nil => rfl
  | cons a rest ih =>
    rw [State.scramble, ih (fun h => hx (List.mem_cons_of_mem a h))]
    have hne : x ≠ a := fun e => hx (e ▸ List.mem_cons_self)
    exact read_write_other _ _ hne

/-- An invocation cut by reset: some bytes inside its bounds, no response, an idle block. -/
theorem cutShort_effect (s : State) (cw : CmdWord) :
    ∃ m k, Writes s.bounds s.frame m ∧
      s.cutShort cw = { s with frame := m, bounds := Bounds.idle, draws := s.draws + k } := by
  obtain ⟨m, k, hm, h⟩ := scramble_effect (writeSetOf_inside s cw) (Writes.none (m := s.frame))
  exact ⟨m, k, hm, by rw [State.cutShort, h]; rfl⟩

/-- Everything a step can do. -/
theorem step_cases (s : State) :
    (s.host = [] ∧ step s = .next s) ∨
    (∃ b cw rest m r k, s.host = .invoke b cw :: rest ∧ Writes b s.frame m ∧
      step s = .next ((s.accept b rest).after m r k)) ∨
    (∃ a v rest, s.host = .write a v :: rest ∧
      step s = .next { s with frame := s.frame.write a v, host := rest }) ∨
    (∃ rest, s.host = .reset :: rest ∧ step s = .next { s with bounds := Bounds.idle, host := rest }) ∨
    (∃ b cw rest m k, s.host = .cut b cw :: rest ∧ Writes b s.frame m ∧
      step s = .next { s with frame := m, bounds := Bounds.idle, host := rest, draws := s.draws + k }) := by
  unfold step
  split
  · next h => exact .inl ⟨h, rfl⟩
  · next b cw rest h =>
    obtain ⟨m, r, k, hm, hr⟩ := runCommand_effect cw (s.accept b rest)
    exact .inr (.inl ⟨b, cw, rest, m, r, k, h, hm, hr⟩)
  · next a v rest h => exact .inr (.inr (.inl ⟨a, v, rest, h, rfl⟩))
  · next rest h => exact .inr (.inr (.inr (.inl ⟨rest, h, rfl⟩)))
  · next b cw rest h =>
    obtain ⟨m, k, hm, hc⟩ := cutShort_effect (s.accept b rest) cw
    exact .inr (.inr (.inr (.inr ⟨b, cw, rest, m, k, h, hm, congrArg _ hc⟩)))

end Sys2Proof.Machine
end

