-- ==== Sys2Proof/Laws/Exec.lean ====
section
/-! SUPPORT. What each command's meaning answers on each of its paths, and the bytes the two effects of TTLDEC leave. -/

namespace Sys2Proof.Machine

variable (s : State)

theorem exec_parse_ok (h : s.classify = .ok) : exec .parse s = .next (s.respond Response.parsedOk) := by
  simp [exec, execParse, h]

theorem exec_parse_rejected (h : s.classify ≠ .ok) : exec .parse s = .next (s.respondRejected s.classify) := by
  simp [exec, execParse, h]

theorem exec_csumip_inside {v : Nat} (old new : Word) (h : s.bounds.fits v 20) : exec (.csumip v old new) s =
    .next ((s.store16 (v + 10) (csumUpdate (s.load16 (v + 10)) old new)).respond (Response.doneWith 0)) := by
  rw [exec, execCsumip, if_pos h]

theorem exec_csumip_outside {v : Nat} (old new : Word) (h : ¬ s.bounds.fits v 20) :
    exec (.csumip v old new) s = .next (s.raise .errBounds) := by
  rw [exec, execCsumip, if_neg h]

theorem exec_ttldec_alive {v : Nat} (h : s.bounds.fits v 20) (ht : s.load8 (v + 8) ≠ 0) :
    exec (.ttldec v) s = .next ((s.decrementTtl v).respond (Response.doneWith 0)) := by
  rw [exec, execTtldec, if_pos h, if_neg ht]

theorem exec_ttldec_expired {v : Nat} (h : s.bounds.fits v 20) (ht : s.load8 (v + 8) = 0) :
    exec (.ttldec v) s = .next (s.raise .errTtl0) := by
  rw [exec, execTtldec, if_pos h, if_pos ht]

theorem exec_ttldec_outside {v : Nat} (h : ¬ s.bounds.fits v 20) :
    exec (.ttldec v) s = .next (s.raise .errBounds) := by
  rw [exec, execTtldec, if_neg h]

@[simp] theorem operandFits_imm (x : Word) : s.operandFits (.imm x) = true := rfl

@[simp] theorem operandFits_view (v : Nat) : s.operandFits (.view v) = true ↔ s.bounds.fits v 4 :=
  decide_eq_true_iff

theorem compare_inside {x y : AddrOperand} (hx : s.operandFits x = true) (hy : s.operandFits y = true) :
    s.compare x y = s.respond (Response.doneWith (if s.addrVal x = s.addrVal y then 1 else 0)) := by
  simp [State.compare, hx, hy]

theorem compare_outside {x y : AddrOperand} (h : ¬ (s.operandFits x = true ∧ s.operandFits y = true)) :
    s.compare x y = s.raise .errBounds := by
  rw [State.compare, if_neg (by simpa using h)]

theorem copy_inside {d : Nat} {x : AddrOperand} (hd : s.bounds.fits d 4) (hx : s.operandFits x = true) :
    s.copy d x = (s.store32 d (s.addrVal x)).respond (Response.doneWith 0) := by
  rw [State.copy, if_pos (by rw [Bool.and_eq_true]; exact ⟨(operandFits_view s d).mpr hd, hx⟩)]

theorem copy_outside {d : Nat} {x : AddrOperand} (h : ¬ (s.bounds.fits d 4 ∧ s.operandFits x = true)) :
    s.copy d x = s.raise .errBounds := by
  rw [State.copy, if_neg (by rw [Bool.and_eq_true, operandFits_view]; exact h)]

/-- A byte written outside a two-byte field does not change it. -/
theorem read16_write_other (m : Memory) {a x : Nat} (b : Byte) (h : a < x ∨ x + 2 ≤ a) :
    (m.write a b).read16 x = m.read16 x :=
  read16_congr (read_write_other m b (by omega)) (read_write_other m b (by omega))

theorem decrementTtl_ttl (v : Nat) :
    (s.decrementTtl v).frame.read (s.bounds.start + v + 8) = s.frame.read (s.bounds.start + v + 8) - 1 :=
  read_write_same _ _ _

theorem decrementTtl_csum (v : Nat) :
    (s.decrementTtl v).frame.read16 (s.bounds.start + v + 10) = ttlCsum (s.frame.read16 (s.bounds.start + v + 10)) := by
  rw [decrementTtl_frame, read16_write_other _ _ (by simp only [State.addr]; omega)]
  exact read16_write16_same _ _ _

theorem decrementTtl_other (v : Nat) {x : Nat} (h8 : x ≠ s.bounds.start + v + 8) (h10 : x ≠ s.bounds.start + v + 10)
    (h11 : x ≠ s.bounds.start + v + 11) : (s.decrementTtl v).frame.read x = s.frame.read x := by
  rw [decrementTtl_frame, read_write_other _ _ (by simp only [State.addr]; omega),
    read_write16_other _ _ (by simp only [State.addr]; omega)]

end Sys2Proof.Machine
end

