-- ==== Sys2Proof/Laws/Fields.lean ====
section
/-! SUPPORT. The fields of a command word and the word of its fields are the same thing, and a mask acts field by field. -/

namespace Sys2Proof

/-- No field of an assembled word is lost. -/
theorem fieldsOf_assemble (f : Fields) : fieldsOf (assemble f) = f := by
  obtain ⟨opc, am, bm, rsv, v, a, b⟩ := f
  simp only [fieldsOf, assemble, Fields.mk.injEq]
  refine ⟨?_, ?_, ?_, ?_, ?_, ?_, ?_⟩ <;>
    (apply BitVec.eq_of_getLsbD_eq
     intro i hi
     simp only [BitVec.getLsbD_extractLsb', BitVec.getLsbD_append, hi, decide_true, Bool.true_and]
     split_ifs <;> first | omega | (congr 1; omega))

/-- A word is the assembly of its fields: the seven fields cover its 96 bits. -/
theorem assemble_fieldsOf (cw : CmdWord) : assemble (fieldsOf cw) = cw := by
  apply BitVec.eq_of_getLsbD_eq
  intro i hi
  simp only [fieldsOf, assemble, BitVec.getLsbD_append, BitVec.getLsbD_extractLsb']
  split_ifs <;> (rw [decide_eq_true (by omega), Bool.true_and]; congr 1; omega)

theorem assemble_inj {f g : Fields} : assemble f = assemble g ↔ f = g :=
  ⟨fun h => by rw [← fieldsOf_assemble f, h, fieldsOf_assemble], fun h => by rw [h]⟩

/-- The bitwise AND of two words, field by field. -/
def Fields.and (f g : Fields) : Fields where
  opc := f.opc &&& g.opc
  am := f.am &&& g.am
  bm := f.bm &&& g.bm
  rsv := f.rsv &&& g.rsv
  v := f.v &&& g.v
  a := f.a &&& g.a
  b := f.b &&& g.b

theorem assemble_and (f g : Fields) : assemble f &&& assemble g = assemble (f.and g) := by
  simp only [assemble, Fields.and, ← BitVec.and_append]

/-- A row of the opcode table selects a word exactly when it selects each field of it. -/
theorem rowSelects_iff (row : CmdWord × CmdWord) (cw : CmdWord) :
    rowSelects row cw = true ↔ (fieldsOf cw).and (fieldsOf row.2) = fieldsOf row.1 := by
  rw [rowSelects, beq_iff_eq]
  conv_lhs => rw [← assemble_fieldsOf cw, ← assemble_fieldsOf row.2, assemble_and, ← assemble_fieldsOf row.1]
  exact assemble_inj

end Sys2Proof
end

