-- ==== Sys2Proof/Laws/PerInstr.lean ====
section
/-! SUPPORT. Statements about every command, made for each constructor: its encoding is selected by its own row of the opcode
table (spec/30_encoding.md R74). -/

namespace Sys2Proof.Laws.TableRow

/-- The command's word is selected by the row of spec/opcode_table.json its form stands in. -/
def Statement (i : Instr) : Prop := ∃ row, opcodeTable[i.row]? = some row ∧ rowSelects row (encode i) = true

/-- A row's selection, field by field, of an encoded command. -/
theorem of_fields (i : Instr) (row : CmdWord × CmdWord) (h : opcodeTable[i.row]? = some row)
    (hf : i.fields.and (fieldsOf row.2) = fieldsOf row.1) : Statement i :=
  ⟨row, h, (rowSelects_iff row (encode i)).mpr (by rwa [encode, fieldsOf_assemble])⟩

/-- A view in an operand field has a zero upper half. -/
theorem viewField_and (v : Nat) : viewField v &&& 0xFFFF0000#32 = 0 := by
  rw [viewField, show 0xFFFF0000#32 = 0xFFFF#16 ++ 0#16 from rfl, BitVec.and_append]
  simp

theorem parse : Statement .parse := of_fields .parse _ rfl rfl

theorem csumip (v : Nat) (old new : Word) : Statement (.csumip v old new) :=
  of_fields _ _ rfl (by
    simp only [Instr.fields, Fields.and, fieldsOf, Fields.mk.injEq]
    refine ⟨rfl, rfl, rfl, rfl, ?_, ?_, ?_⟩ <;> exact BitVec.and_zero)

theorem csumudp (c : Half) (old new : Word) : Statement (.csumudp c old new) :=
  of_fields _ _ rfl (by
    simp only [Instr.fields, Fields.and, fieldsOf, Fields.mk.injEq]
    refine ⟨rfl, rfl, rfl, rfl, ?_, ?_, ?_⟩ <;> exact BitVec.and_zero)

theorem ttldec (v : Nat) : Statement (.ttldec v) :=
  of_fields _ _ rfl (by
    simp only [Instr.fields, Fields.and, fieldsOf, Fields.mk.injEq]
    exact ⟨rfl, rfl, rfl, rfl, BitVec.and_zero, rfl, rfl⟩)

theorem addreqImmImm (a b : Word) : Statement (.addreqImmImm a b) :=
  of_fields _ _ rfl (by
    simp only [Instr.fields, Fields.and, fieldsOf, Fields.mk.injEq]
    exact ⟨rfl, rfl, rfl, rfl, rfl, BitVec.and_zero, BitVec.and_zero⟩)

theorem addreqViewImm (a : Nat) (b : Word) : Statement (.addreqViewImm a b) :=
  of_fields _ _ rfl (by
    simp only [Instr.fields, Fields.and, fieldsOf, Fields.mk.injEq]
    exact ⟨rfl, rfl, rfl, rfl, rfl, viewField_and a, BitVec.and_zero⟩)

theorem addreqImmView (a : Word) (b : Nat) : Statement (.addreqImmView a b) :=
  of_fields _ _ rfl (by
    simp only [Instr.fields, Fields.and, fieldsOf, Fields.mk.injEq]
    exact ⟨rfl, rfl, rfl, rfl, rfl, BitVec.and_zero, viewField_and b⟩)

theorem addreqViewView (a b : Nat) : Statement (.addreqViewView a b) :=
  of_fields _ _ rfl (by
    simp only [Instr.fields, Fields.and, fieldsOf, Fields.mk.injEq]
    exact ⟨rfl, rfl, rfl, rfl, rfl, viewField_and a, viewField_and b⟩)

theorem addrcpyImm (d : Nat) (src : Word) : Statement (.addrcpyImm d src) :=
  of_fields _ _ rfl (by
    simp only [Instr.fields, Fields.and, fieldsOf, Fields.mk.injEq]
    exact ⟨rfl, rfl, rfl, rfl, BitVec.and_zero, rfl, BitVec.and_zero⟩)

theorem addrcpyView (d src : Nat) : Statement (.addrcpyView d src) :=
  of_fields _ _ rfl (by
    simp only [Instr.fields, Fields.and, fieldsOf, Fields.mk.injEq]
    exact ⟨rfl, rfl, rfl, rfl, BitVec.and_zero, rfl, viewField_and src⟩)

end Sys2Proof.Laws.TableRow
end

