-- ==== Sys2Proof/Tests/Slice0.lean ====
section
/-! SUPPORT. The model's own tests: the WellFormed smoke test, words decoded from the spec's encodings, one-step vectors of
spec/95_test_vectors.md (expected values are the spec's), and a witness for the hypotheses of each obligation. -/

namespace Sys2Proof.Tests

open Sys2Proof.Machine

/-! ### WellFormed: an ill-formed term for each check -/

theorem test_wellFormed_accepts :
    Instr.WellFormed (.csumip 65535 0 0) ∧ Instr.WellFormed (.addrcpyView 65535 0) := by decide

theorem test_wellFormed_refuses_views :
    ¬ Instr.WellFormed (.csumip 65536 0 0) ∧ ¬ Instr.WellFormed (.ttldec 65536) ∧
    ¬ Instr.WellFormed (.addreqViewImm 65536 0) ∧ ¬ Instr.WellFormed (.addreqImmView 0 65536) ∧
    ¬ Instr.WellFormed (.addreqViewView 65536 0) ∧ ¬ Instr.WellFormed (.addreqViewView 0 65536) ∧
    ¬ Instr.WellFormed (.addrcpyImm 65536 0) ∧ ¬ Instr.WellFormed (.addrcpyView 65536 0) ∧
    ¬ Instr.WellFormed (.addrcpyView 0 65536) := by decide

/-! ### Decoding: words written out from R62, R74 and R82, and the vectors of 95_test_vectors.md -/

/-- The command a word decodes to. -/
def dec (w : CmdWord) : Option Instr := (decode w).toOption

/-- Why a word is rejected. -/
def rej (w : CmdWord) : Option Reject :=
  match decode w with
  | .ok _ => none
  | .error e => some e

/-- R82 line 1, V1. -/
theorem test_decode_parse : dec 0x000000000000000000000001#96 = some .parse := by decide
/-- R82 line 2: OPC 2, V 000E, A 0A000002, B 0A000003. -/
theorem test_decode_csumip : dec 0x0A0000030A000002000E0002#96 = some (.csumip 14 0x0A000002 0x0A000003) := by decide
/-- R82 line 3: OPC 3, V D0DB. -/
theorem test_decode_csumudp : dec 0x0A0000030A000002D0DB0003#96 = some (.csumudp 0xD0DB 0x0A000002 0x0A000003) := by decide
/-- T26: OPC 4, V 0016. -/
theorem test_decode_ttldec : dec 0x000000000000000000160004#96 = some (.ttldec 22) := by decide
/-- A7: OPC 5, both modes 0. -/
theorem test_decode_addreqImmImm : dec 0x040302010102030400000005#96 = some (.addreqImmImm 0x01020304 0x04030201) := by decide
/-- A12: OPC 5, AM 1, the largest view. -/
theorem test_decode_addreqViewImm : dec 0x000000000000FFFF00000015#96 = some (.addreqViewImm 65535 0) := by decide
/-- A3: OPC 5, BM 1. -/
theorem test_decode_addreqImmView : dec 0x0000001E0A00000200000025#96 = some (.addreqImmView 0x0A000002 30) := by decide
/-- R82 line 6: OPC 5, both modes 1. -/
theorem test_decode_addreqViewView : dec 0x0000001E0000001A00000035#96 = some (.addreqViewView 26 30) := by decide
/-- A21: OPC 6, V 0026. -/
theorem test_decode_addrcpyImm : dec 0xDEADBEEF0000000000260006#96 = some (.addrcpyImm 38 0xDEADBEEF) := by decide
/-- A19: OPC 6, BM 1. -/
theorem test_decode_addrcpyView : dec 0x0000001A00000000001C0026#96 = some (.addrcpyView 28 26) := by decide

/-- The illegal words X1 to X6. -/
theorem test_reject_opcode_and_parse :
    rej 0x000000000000000000000000#96 = some .reservedOpcode ∧ rej 0x000000000000000000000007#96 = some .reservedOpcode ∧
    rej 0x00000000000000000000000F#96 = some .reservedOpcode ∧ rej 0x0000000000000000000E0001#96 = some .unusedField ∧
    rej 0x000000000000000000000041#96 = some .reservedBits ∧ rej 0x000000000000000000000011#96 = some .modeBit := by decide

/-- The illegal words X7 to X12. -/
theorem test_reject_modes_and_unused :
    rej 0x0000000200000001000E0012#96 = some .modeBit ∧ rej 0x000000000000000012340023#96 = some .modeBit ∧
    rej 0x0000000000000001000E0004#96 = some .unusedField ∧ rej 0x0000000100000000000E0004#96 = some .unusedField ∧
    rej 0x0000000000000000000E8004#96 = some .reservedBits ∧ rej 0x000000000000000000010005#96 = some .unusedField := by decide

/-- The illegal words X13 to X18. -/
theorem test_reject_views :
    rej 0x000000000001000000000015#96 = some .viewUpperHalf ∧ rej 0x0001001E0000000000000025#96 = some .viewUpperHalf ∧
    rej 0x0000000100000000001E0016#96 = some .modeBit ∧ rej 0x0000000100000001001E0006#96 = some .unusedField ∧
    rej 0x0001001A00000000001E0026#96 = some .viewUpperHalf ∧ rej 0x0000000000000001EA600004#96 = some .unusedField := by decide

/-! ### One step on a small state -/

/-- The memory with the bytes written from address `a` on. -/
def putBytes (m : Memory) : Nat → List Byte → Memory
  | _, [] => m
  | a, b :: rest => putBytes (m.write a b) (a + 1) rest

/-- The reference frame F0 of 95_test_vectors.md section 2, at address 0. -/
def f0 : Memory := putBytes [] 0
  [0x02, 0x00, 0x00, 0x00, 0x00, 0x02, 0x02, 0x00, 0x00, 0x00, 0x00, 0x01, 0x08, 0x00,
   0x45, 0x00, 0x00, 0x1C, 0x00, 0x00, 0x00, 0x00, 0x40, 0x11, 0x66, 0xCF, 0x0A, 0x00, 0x00, 0x01,
   0x0A, 0x00, 0x00, 0x02, 0x04, 0xD2, 0x16, 0x2E, 0x00, 0x08, 0xD0, 0xDB]

/-- F0 under `START = 0` and a given `END`, with some bytes replaced, the host presenting one command. -/
def frameState (m : Memory) (stop : Nat) (cw : CmdWord) : State :=
  { State.reset with frame := m, host := [.invoke ⟨0, stop⟩ cw] }

/-- What one step observes: the response words, and the frame bytes at some offsets. -/
def observe (s : State) (offs : List Nat) : Option (List RspWord × List Byte) :=
  match step s with
  | .next t => some (t.responses.map Response.word, offs.map t.frame.read)
  | _ => none

/-- The status and outcome codes of one step's responses (their free fields are not looked at). -/
def codes (s : State) : Option (List (BitVec 4 × BitVec 4)) :=
  match step s with
  | .next t => some (t.responses.map fun r => (r.status.code, r.outcome.code))
  | _ => none

/-- V1. -/
theorem test_parse_V1 :
    observe (frameState f0 42 0x000000000000000000000001#96) [] = some ([0x001E001A0022000E00#72], []) := by decide +kernel

/-- V10, V3, V36: priority by length, then by header length. -/
theorem test_parse_priority :
    codes (frameState (putBytes f0 12 [0x86, 0xDD]) 20 1#96) = some [(0, 1)] ∧ codes (frameState f0 33 1#96) = some [(0, 2)] ∧
    codes (frameState (putBytes (putBytes f0 14 [0x46]) 20 [0x20, 0x00, 0x00]) 42 1#96) = some [(0, 4)] := by decide +kernel

/-- K30: bytes 24, 25 become 66 CE. -/
theorem test_csumip_K30 : observe (frameState f0 42 0x0A0000030A000002000E0002#96) [23, 24, 25, 26] =
    some ([0#72], [0x11, 0x66, 0xCE, 0x0A]) := by decide +kernel

/-- K33: the view does not fit. -/
theorem test_csumip_K33 : observe (frameState f0 42 0x000000000000000000170002#96) [33, 34] =
    some ([2#72], [0x02, 0x04]) := by decide +kernel

/-- K31 with the bounds of K35. -/
theorem test_csumudp_K35 : observe (frameState f0 0 0x0A0000030A000002D0DB0003#96) [] =
    some ([0x000000000000D0DA00#72], []) := by decide +kernel

/-- K6 and K13: the two corners of the double zero, and K21, where the accumulator is near its maximum. -/
theorem test_csumUpdate_corners : csumUpdate 0xFFFF 0xFFFFFFFF 0 = 0xFFFF ∧ csumUpdate 0xFFFE 1 0 = 0x0000 ∧
    csumUpdate 0x1234 0 0xFFFFFFFF = 0x1234 ∧ csumUpdate 0x0000 0x0A000002 0xC0A80001 = 0x4958 := by decide +kernel

/-- T24: checksum FF00 carries. -/
theorem test_ttldec_T24 : observe (frameState (putBytes f0 24 [0xFF, 0x00]) 42 0x0000000000000000000E0004#96) [22, 23, 24, 25] =
    some ([0#72], [0x3F, 0x11, 0x00, 0x01]) := by decide +kernel

/-- T22: a time-to-live of 0. -/
theorem test_ttldec_T22 : observe (frameState (putBytes f0 22 [0x00]) 42 0x0000000000000000000E0004#96) [22, 24, 25] =
    some ([3#72], [0x00, 0x66, 0xCF]) := by decide +kernel

/-- T5, T6, T9. -/
theorem test_ttlCsum_corners : ttlCsum 0xFEFF = 0xFFFF ∧ ttlCsum 0xFF00 = 0x0001 ∧ ttlCsum 0xFFFF = 0x0100 := by decide +kernel

/-- A7. -/
theorem test_addreqImmImm_A7 : observe (frameState f0 42 0x040302010102030400000005#96) [] = some ([0#72], []) := by decide +kernel
/-- A13: the first byte is bits 31:24. -/
theorem test_addreqViewImm_A13 : observe (frameState f0 42 0x020000000000000000000015#96) [] = some ([0x100#72], []) := by decide +kernel
/-- A10: the view does not fit. -/
theorem test_addreqViewImm_A10 : observe (frameState f0 42 0x000000000000002700000015#96) [] = some ([2#72], []) := by decide +kernel
/-- A3. -/
theorem test_addreqImmView_A3 : observe (frameState f0 42 0x0000001E0A00000200000025#96) [] = some ([0x100#72], []) := by decide +kernel
/-- A4. -/
theorem test_addreqViewView_A4 : observe (frameState f0 42 0x0000001E0000001A00000035#96) [] = some ([0#72], []) := by decide +kernel

/-- A21: the last four bytes of the frame. -/
theorem test_addrcpyImm_A21 : observe (frameState f0 42 0xDEADBEEF0000000000260006#96) [37, 38, 39, 40, 41] =
    some ([0#72], [0x2E, 0xDE, 0xAD, 0xBE, 0xEF]) := by decide +kernel
/-- A22: one byte short, nothing written. -/
theorem test_addrcpyImm_A22 : observe (frameState f0 42 0x000000000000000000270006#96) [39, 40, 41] =
    some ([2#72], [0x08, 0xD0, 0xDB]) := by decide +kernel
/-- A19: overlapping views, the source read whole first. -/
theorem test_addrcpyView_A19 : observe (frameState f0 42 0x0000001A00000000001C0026#96) [26, 27, 28, 29, 30, 31, 32, 33] =
    some ([0#72], [0x0A, 0x00, 0x0A, 0x00, 0x00, 0x01, 0x00, 0x02]) := by decide +kernel
/-- A23: the source view does not fit. -/
theorem test_addrcpyView_A23 : observe (frameState f0 42 0x0000002700000000001E0026#96) [30, 33] =
    some ([2#72], [0x0A, 0x02]) := by decide +kernel

/-- X18: an illegal word with a view out of bounds is `ERR_ILLEGAL`. -/
theorem test_illegal_X18 : observe (frameState f0 42 0x0000000000000001EA600004#96) [22] = some ([1#72], [0x40]) := by decide +kernel

/-- R133: F0's stored checksum is its from-scratch checksum. -/
theorem test_ipChecksumFull_F0 : ipChecksumFull f0 14 = 0x66CF := by decide +kernel

/-- The memory F0 is in canonical form, and writing 0 removes an entry. -/
theorem test_canonical : f0.wf ∧ f0.write 12 0 = f0.filter (fun c => c.1 != 12) := by decide +kernel

/-! ### Witnesses: for each obligation with hypotheses, a state and operands that meet them all -/

/-- F0 with the command port holding its bounds, no event pending. -/
def busy : State := { State.reset with frame := f0, bounds := ⟨0, 42⟩ }

/-- The host about to present a word under F0's bounds. -/
def presents (cw : CmdWord) : State := frameState f0 42 cw

theorem witness_DecodeEncodeRoundTrip :
    Instr.WellFormed (.addreqViewView 0 65535) ∧ legal 0xFFFFFFFFFFFFFFFFFFFF0003#96 = true := by decide

theorem witness_OpcodeTablePartitionsLegalWords :
    rowSelects (opcodeTable.getD 7 (0, 0)) 0x0000FFFF0000FFFF00000035#96 = true ∧
    dec 0x0000FFFF0000FFFF00000035#96 = some (.addreqViewView 65535 65535) := by decide

theorem witness_IllegalWordsAreRefused :
    (presents 0#96).host = .invoke ⟨0, 42⟩ 0#96 :: [] ∧ legal 0#96 = false ∧ legal 0x0000000000000000000E8004#96 = false := by decide

theorem witness_StepRunsTheDecodedCommand :
    (presents 1#96).host = .invoke ⟨0, 42⟩ 1#96 :: [] ∧ decode 1#96 = .ok .parse := ⟨rfl, rfl⟩

theorem witness_EveryInvocationAnswersOnce : (presents 0#96).host = .invoke ⟨0, 42⟩ 0#96 :: [] := rfl

theorem witness_CommandFrame : ∃ t, exec (.addrcpyImm 38 1) busy = .next t := ⟨_, rfl⟩

/-- A frame for each row of R106, at the lengths where rows meet (13, 14, 33, 34). -/
theorem witness_ParseFollowsDecisionTable :
    codes (frameState f0 13 1#96) = some [(0, 2)] ∧
    codes (frameState (putBytes f0 12 [0x86]) 14 1#96) = some [(0, 1)] ∧
    codes (frameState f0 14 1#96) = some [(0, 2)] ∧
    codes (frameState (putBytes f0 14 [0x44]) 34 1#96) = some [(0, 3)] ∧
    codes (frameState (putBytes f0 23 [0x06]) 34 1#96) = some [(0, 6)] ∧
    codes (frameState (putBytes f0 14 [0x4F]) 34 1#96) = some [(0, 4)] ∧
    codes (frameState (putBytes f0 20 [0x1F, 0xFF]) 34 1#96) = some [(0, 5)] ∧
    codes (frameState (putBytes f0 22 [0x00]) 34 1#96) = some [(0, 7)] ∧
    codes (frameState (putBytes f0 20 [0xC0, 0x00, 0x01]) 34 1#96) = some [(0, 0)] := by decide +kernel

/-- The shortest accepted frame (V2), and one that is not accepted (V3). -/
theorem witness_ParseOkReturnsViews :
    (34 ≤ 34 - 0 ∧ f0.read16 12 = 0x0800 ∧ (f0.read 14).toNat % 16 = 5 ∧ f0.read 23 = 17 ∧
      f0.read16 20 &&& 0x3FFF = 0 ∧ 1 ≤ (f0.read 22).toNat) ∧
    exec .parse busy = .next { busy with bounds := ⟨0, 0⟩, responses := [⟨.done, .ok, 14, 34, 26, 30⟩] } := by
  refine ⟨by decide +kernel, ?_⟩
  have h : busy.classify = .ok := by decide +kernel
  show execParse busy = _
  rw [execParse, if_pos h]
  rfl

theorem witness_RejectedParseCarriesFreeValues : ¬ ParseAccepts { busy with bounds := ⟨0, 33⟩ } :=
  fun h => absurd h.1 (by decide)

/-- Two states that differ in a byte `PARSE` does not read. -/
theorem witness_ParseDependsOnSevenBytes :
    (∀ k ∈ [12, 13, 14, 20, 21, 22, 23], f0.read (0 + k) = (f0.write 24 0).read (0 + k)) ∧ f0 ≠ f0.write 24 0 ∧
    (∃ t, exec .parse busy = .next t) ∧ (∃ t, exec .parse { busy with frame := f0.write 24 0 } = .next t) := by
  refine ⟨by decide +kernel, by decide +kernel, ?_, ?_⟩ <;>
    (show ∃ t, execParse _ = .next t; unfold execParse; split <;> exact ⟨_, rfl⟩)

theorem witness_FoldSixteenIteratesTheCarry : (65535 : Nat) < 2 ^ 16 ∧ 2 ^ 16 ≤ (65536 : Nat) ∧ fold16 65536 = 1 := by
  decide +kernel

theorem witness_FoldSixteenFacts : (65535 : Nat) < 2 ^ 16 ∧ 0 < 65535 ∧ 0x4FFFB ≤ 5 * 65535 ∧
    0x1FFFF ≤ 5 * 65535 ∧ 2 ^ 16 ≤ foldStep 0x1FFFF := by decide +kernel

theorem witness_checksum_update_laws : (0xFFFE : Half) ≠ 0xFFFF ∧ (0x0001 : Half) ≠ 0x0000 ∧
    csumUpdate (csumUpdate 0xFFFE 1 2) 2 1 = 0xFFFE := by decide +kernel

/-- The last header view that fits F0 (K32). -/
theorem witness_CsumipUpdatesChecksumInPlace : busy.bounds.start + 22 + 20 ≤ busy.bounds.stop := by decide

/-- F0's destination rewritten at header offset 16, the last of the list. -/
theorem witness_CopyThenCsumipKeepsHeaderChecksum :
    busy.bounds.start + 14 + 20 ≤ busy.bounds.stop ∧ 16 ∈ [0, 2, 4, 6, 12, 14, 16] ∧
    busy.frame.read (busy.bounds.start + 14) ≠ 0 ∧
    busy.frame.read16 (busy.bounds.start + 14 + 10) = ipChecksumFull busy.frame (busy.bounds.start + 14) ∧
    (∃ t, exec (.addrcpyImm (14 + 16) 0x0A000003) busy = .next t ∧ t.frame.read (busy.bounds.start + 14) ≠ 0 ∧
      ∃ u, exec (.csumip 14 (busy.frame.read32 (busy.bounds.start + 14 + 16)) 0x0A000003) { t with bounds := busy.bounds } =
        .next u) :=
  ⟨by decide, by decide, by decide +kernel, by decide +kernel, _, rfl, by decide +kernel, _, rfl⟩

/-- F0's destination rewritten from a source view that overlaps it and runs past the header's end. -/
theorem witness_CopyViewThenCsumipKeepsHeaderChecksum :
    busy.bounds.start + 14 + 20 ≤ busy.bounds.stop ∧ busy.bounds.start + 32 + 4 ≤ busy.bounds.stop ∧
    16 ∈ [0, 2, 4, 6, 12, 14, 16] ∧ busy.frame.read (busy.bounds.start + 14) ≠ 0 ∧
    busy.frame.read16 (busy.bounds.start + 14 + 10) = ipChecksumFull busy.frame (busy.bounds.start + 14) ∧
    (∃ t, exec (.addrcpyView (14 + 16) 32) busy = .next t ∧ t.frame.read (busy.bounds.start + 14) ≠ 0 ∧
      ∃ u, exec (.csumip 14 (busy.frame.read32 (busy.bounds.start + 14 + 16)) (busy.frame.read32 (busy.bounds.start + 32)))
        { t with bounds := busy.bounds } = .next u) :=
  ⟨by decide, by decide, by decide, by decide +kernel, by decide +kernel, _, rfl, by decide +kernel, _, rfl⟩

theorem witness_TtldecDecrementsWithChecksum :
    busy.bounds.start + 22 + 20 ≤ busy.bounds.stop ∧ busy.frame.read (busy.bounds.start + 22 + 8) ≠ 0 := by decide +kernel

theorem witness_TtldecRefusesExpiredHeader :
    busy.bounds.start + 8 + 20 ≤ busy.bounds.stop ∧ busy.frame.read (busy.bounds.start + 8 + 8) = 0 := by decide +kernel

/-- Both sides of R144: F0's header, and a view whose time-to-live byte is 0. -/
theorem witness_TtldecBothEffectsOrNeither :
    (observe (presents 0x0000000000000000000E0004#96) [22, 24, 25]) = some ([0#72], [0x3F, 0x67, 0xCF]) ∧
    (observe (presents 0x000000000000000000080004#96) [16]) = some ([3#72], [0x00]) := by decide +kernel

/-- F0 and the header of program P3, whose checksum is `0xFEFF`. -/
theorem witness_TtldecKeepsHeaderChecksum :
    (f0.read 14 ≠ 0 ∧ f0.read (14 + 8) ≠ 0 ∧ f0.read16 24 = ipChecksumFull f0 14 ∧ f0.read16 24 ≠ 0xFEFF) ∧
    (let p3 := putBytes (putBytes f0 18 [0xA5, 0xCF]) 22 [0x02, 0x11, 0xFE, 0xFF]
     p3.read 14 ≠ 0 ∧ p3.read (14 + 8) ≠ 0 ∧ p3.read16 24 = ipChecksumFull p3 14 ∧ p3.read16 24 = 0xFEFF) := by decide +kernel

theorem witness_TtlShortcutVersusUpdate : 0x0100 ≤ (0x0111 : Half).toNat ∧ (0xFEFE : Half) ≠ 0xFEFF := by decide

/-- For AddreqComparesFourBytes, AddreqReflexiveSymmetric and AddrcpyWritesFourBytes: address views at the end of F0 (A9), and a
partial overlap that CopyThenCompareIsEqual excludes. -/
theorem witness_address_views :
    busy.bounds.start + 38 + 4 ≤ busy.bounds.stop ∧ (26 + 4 ≤ 30 ∨ 30 + 4 ≤ 26) ∧ ¬ (26 = 28 ∨ 26 + 4 ≤ 28 ∨ 28 + 4 ≤ 26) := by decide

theorem witness_CopyThenCompareIsEqual :
    (∃ t, exec (.addrcpyImm 30 0x0A000003) busy = .next t ∧ t.responses = busy.responses ++ [⟨.done, .ok, 0, 0, 0, 0⟩]) ∧
    (∃ t, exec (.addrcpyView 30 26) busy = .next t ∧ t.responses = busy.responses ++ [⟨.done, .ok, 0, 0, 0, 0⟩]) :=
  ⟨⟨_, rfl, rfl⟩, ⟨_, rfl, rfl⟩⟩

theorem witness_CsumipCommutesWithCopy :
    busy.bounds.start + 14 + 20 ≤ busy.bounds.stop ∧ busy.bounds.start + 30 + 4 ≤ busy.bounds.stop ∧ (30 + 4 ≤ 14 + 10 ∨ 14 + 12 ≤ 30) ∧
    (∃ t, exec (.csumip 14 0x0A000002 0x0A000003) busy = .next t ∧
      ∃ u, exec (.addrcpyImm 30 0x0A000003) { t with bounds := busy.bounds } = .next u) ∧
    (∃ t, exec (.addrcpyImm 30 0x0A000003) busy = .next t ∧
      ∃ u, exec (.csumip 14 0x0A000002 0x0A000003) { t with bounds := busy.bounds } = .next u) :=
  ⟨by decide, by decide, by decide, ⟨_, rfl, _, rfl⟩, ⟨_, rfl, _, rfl⟩⟩

theorem witness_BoundsFaultIffViewOutside :
    ViewsFit busy (.addreqViewView 38 38) ∧ ¬ ViewsFit busy (.addreqViewView 38 39) ∧ ViewsFit busy (.ttldec 22) ∧
    ¬ ViewsFit busy (.ttldec 23) := by
  simp [ViewsFit, busy, State.reset, Bounds.fits]

theorem witness_CommandFaultsChangeNothing :
    (presents 0x000000000000000000170002#96).host = .invoke ⟨0, 42⟩ 0x000000000000000000170002#96 :: [] ∧
    ∃ t, step (presents 0x000000000000000000170002#96) = .next t ∧ t.responses = [] ++ [⟨.errBounds, .ok, 0, 0, 0, 0⟩] :=
  ⟨rfl, _, rfl, rfl⟩

/-- A faulted command and one that ends with `DONE`. -/
theorem witness_ResultFieldsByCommand :
    (∃ t, exec (.ttldec 23) busy = .next t ∧ t.responses = busy.responses ++ [⟨.errBounds, .ok, 0, 0, 0, 0⟩]) ∧
    (∃ t, exec (.csumudp 0xD0DB 0x0A000002 0x0A000003) busy = .next t ∧
      t.responses = busy.responses ++ [⟨.done, .ok, 0xD0DA, 0, 0, 0⟩]) :=
  ⟨⟨_, rfl, rfl⟩, ⟨_, rfl, by decide +kernel⟩⟩

theorem witness_BoundsGuard : (⟨0, 42⟩ : Bounds).fits 38 4 ∧ ¬ (⟨0, 42⟩ : Bounds).fits 39 4 ∧ (4 : Nat) ≤ 10 := by decide

/-- Bounds the ports can carry whatever the width, and a fit inside them. -/
theorem witness_BoundsGuard_inSpace : (⟨0, 1⟩ : Bounds).InSpace ∧ (⟨0, 1⟩ : Bounds).fits 0 1 :=
  ⟨⟨Nat.two_pow_pos _, Nat.one_lt_two_pow (by simp [Config.fbAw])⟩, by decide⟩

/-- An address below the bounds, and one at `END`. -/
theorem witness_InvocationWritesInsideBounds :
    (presents 0#96).host = .invoke ⟨0, 42⟩ 0#96 :: [] ∧ (∃ t, step (presents 0#96) = .next t) ∧ ((42 : Nat) < 0 ∨ 42 ≤ 42) :=
  ⟨rfl, ⟨_, rfl⟩, by decide⟩

/-- Two frames that differ only outside the bounds. -/
theorem witness_InvocationReadsInsideBounds :
    (presents 0#96).host = .invoke ⟨0, 42⟩ 0#96 :: [] ∧ AgreeInside ⟨0, 42⟩ f0 (f0.write 42 1) ∧ f0 ≠ f0.write 42 1 := by
  refine ⟨rfl, fun a ha => ?_, by decide +kernel⟩
  have h : ∀ a < 42, f0.read a = (f0.write 42 1).read a := by decide +kernel
  exact h a ha.2

/-- The addresses on either side of a written byte, and of four written bytes. -/
theorem witness_MemWriteIsBigEndian : (23 : Nat) ≠ 24 ∧ ((25 : Nat) < 26 ∨ 26 + 4 ≤ 25) ∧ ((30 : Nat) < 26 ∨ 26 + 4 ≤ 30) := by decide

theorem witness_StepKeepsFrameCanonical : (presents 1#96).frame.wf ∧ ∃ t, step (presents 0#96) = .next t :=
  ⟨by decide +kernel, _, rfl⟩

/-- A state with events whose addresses exist whatever the width. -/
theorem witness_StepKeepsAddressesInSpace :
    State.InRange { State.reset with host := [.invoke ⟨0, 1⟩ 0#96, .write 0 1, .reset, .cut ⟨0, 1⟩ 0#96] } := by
  have h1 : (1 : Nat) < 2 ^ Config.fbAw := Nat.one_lt_two_pow (by simp [Config.fbAw])
  have h0 : (0 : Nat) < 2 ^ Config.fbAw := Nat.two_pow_pos _
  refine ⟨by simp [State.reset], ⟨h0, h0⟩, ?_⟩
  intro e he
  simp only [List.mem_cons, List.not_mem_nil, or_false] at he
  rcases he with rfl | rfl | rfl | rfl
  · exact ⟨h0, h1⟩
  · exact h0
  · trivial
  · exact ⟨h0, h1⟩

theorem witness_BlockIsIdleBetweenSteps :
    (presents 0#96).bounds = { start := 0, stop := 0 } ∧ (∃ t, step (presents 0#96) = .next t) ∧
    ∃ t, exec (.csumudp 0 0 0) busy = .next t := ⟨rfl, ⟨_, rfl⟩, ⟨_, rfl⟩⟩

/-- Two states that differ in the responses given before. -/
theorem witness_NothingSurvivesAnInvocation :
    let s := presents 0#96
    let s' := { presents 0#96 with responses := [⟨.done, .ok, 1, 0, 0, 0⟩] }
    s.frame = s'.frame ∧ s.host = s'.host ∧ s.draws = s'.draws ∧ s ≠ s' ∧ (∃ t, step s = .next t) ∧ ∃ t, step s' = .next t :=
  ⟨rfl, rfl, rfl, by decide +kernel, ⟨_, rfl⟩, ⟨_, rfl⟩⟩

theorem witness_IdleBlockStaysIdle : State.reset.host = [] := rfl

theorem witness_host_events :
    (∃ rest, ({ State.reset with host := [.reset] } : State).host = .reset :: rest) ∧
    (∃ rest, ({ State.reset with host := [.write 7 9] } : State).host = .write 7 9 :: rest) ∧
    (∃ rest, ({ busy with host := [.cut ⟨0, 42⟩ 0x0000000000000000000E0004#96] } : State).host =
      .cut ⟨0, 42⟩ 0x0000000000000000000E0004#96 :: rest) := ⟨⟨_, rfl⟩, ⟨_, rfl⟩, ⟨_, rfl⟩⟩

/-- The write set of the cut `TTLDEC` of F0: three bytes, and none where the view does not fit. -/
theorem test_writeSet_ttldec : busy.writeSetOf 0x0000000000000000000E0004#96 = [22, 24, 25] ∧
    busy.writeSetOf 0x000000000000000000170004#96 = [] := by decide +kernel

/-- The step after `withFetchWord` runs the word: `TTLDEC @0` finds a time-to-live of 0 in the untouched frame buffer. -/
theorem test_withFetchWord : decodeTableWord 96 4 = some (.ttldec 0) ∧
    observe (State.reset.withFetchWord 96 4) [] = some ([3#72], []) := by decide +kernel

end Sys2Proof.Tests
end

