-- ==== Sys2Proof/Proofs/AddressSpace.lean ====
section
/-! The address-space invariant `State.InRange` under each kind of step (R8, R40, R42). -/

namespace Sys2Proof.Machine

theorem addressInSpace_of_holds {b : Bounds} {a : Nat} (hb : b.InSpace) (ha : b.Holds a) : AddressInSpace a :=
  ha.2.trans hb.2

theorem idle_inSpace : Bounds.idle.InSpace := ⟨Nat.two_pow_pos _, Nat.two_pow_pos _⟩

/-- Writes inside bounds that exist list no address that does not. -/
theorem Writes.cells_inSpace {b : Bounds} {m m' : Memory} (h : Writes b m m') (hb : b.InSpace)
    (hm : ∀ c ∈ m, AddressInSpace c.1) : ∀ c ∈ m', AddressInSpace c.1 := by
  intro c hc
  rcases h.cells hc with hold | hin
  · exact hm c hold
  · exact addressInSpace_of_holds hb hin

theorem write_cells_inSpace {m : Memory} {a : Nat} (v : Byte) (ha : AddressInSpace a)
    (hm : ∀ c ∈ m, AddressInSpace c.1) : ∀ c ∈ m.write a v, AddressInSpace c.1 := by
  intro c hc
  rcases mem_write hc with rfl | hold
  · exact ha
  · exact hm c hold

namespace State.InRange

variable {s t : State} {e : HostEvent} {rest : List HostEvent}

theorem host_cons (hs : s.InRange) (h : s.host = e :: rest) : e.InSpace ∧ ∀ e' ∈ rest, e'.InSpace :=
  List.forall_mem_cons.mp (h ▸ hs.host)

/-- The shared shape of an invocation, whole or cut, and of a reset: writes inside bounds that exist, an empty port and one event
of the host's list used up. -/
theorem of_writes {b : Bounds} (hs : s.InRange) (hb : b.InSpace) (hw : Writes b s.frame t.frame)
    (hidle : t.bounds = Bounds.idle) (hhost : s.host = e :: t.host) : t.InRange where
  frame := hw.cells_inSpace hb hs.frame
  bounds := hidle ▸ idle_inSpace
  host := (hs.host_cons hhost).2

end State.InRange

/-- Settles O45: each kind of step of `step_cases` keeps the invariant. A command reaches only addresses below `END` (R42), and a host
write only the address of its event. -/
theorem stepKeepsAddressesInSpace : Obligations.StepKeepsAddressesInSpace := by
  intro s t hs hstep
  rcases step_cases s with ⟨_, h⟩ | ⟨b, cw, rest, m, r, k, hhost, hw, h⟩ | ⟨a, v, rest, hhost, h⟩ |
    ⟨rest, hhost, h⟩ | ⟨b, cw, rest, m, k, hhost, hw, h⟩ <;>
    obtain rfl := Host.Outcome.next.inj (h.symm.trans hstep)
  · exact hs
  · exact hs.of_writes (hs.host_cons hhost).1 hw rfl hhost
  · obtain ⟨ha, hrest⟩ := hs.host_cons hhost
    exact ⟨write_cells_inSpace v ha hs.frame, hs.bounds, hrest⟩
  · exact hs.of_writes idle_inSpace .none rfl hhost
  · exact hs.of_writes (hs.host_cons hhost).1 hw rfl hhost

end Sys2Proof.Machine
end

