-- ==== Sys2Proof/Proofs/StepEquations.lean ====
section
/-! What a step is at each event of the host (R28, R30, R60): one equation an event, and two for the command word of an invocation. -/

namespace Sys2Proof.Machine

variable {s : State} {b : Bounds} {cw : CmdWord} {rest : List HostEvent}

theorem step_of_idle (h : s.host = []) : step s = .next s := by rw [step, h]

theorem step_of_invoke (h : s.host = .invoke b cw :: rest) : step s = runCommand cw (s.accept b rest) := by
  rw [step, h]

theorem step_of_write {a : Nat} {v : Byte} (h : s.host = .write a v :: rest) :
    step s = .next ({ s with host := rest }.hostWrite a v) := by rw [step, h]

theorem step_of_reset (h : s.host = .reset :: rest) : step s = .next { s with host := rest }.resetBlock := by
  rw [step, h]

theorem step_of_cut (h : s.host = .cut b cw :: rest) : step s = .next ((s.accept b rest).cutShort cw) := by
  rw [step, h]

theorem runCommand_of_decode_ok {i : Instr} (h : decode cw = .ok i) : runCommand cw s = exec i s := by
  rw [runCommand, h]

theorem runCommand_of_decode_error {e : Reject} (h : decode cw = .error e) :
    runCommand cw s = .next (s.raise .errIllegal) := by
  rw [runCommand, h]

/-- Settles O6: the step at an invocation runs the word, and a word that decodes runs its command. -/
theorem stepRunsTheDecodedCommand : Obligations.StepRunsTheDecodedCommand := by
  intro s b w rest i hhost hdecode
  calc step s = runCommand w (s.accept b rest) := step_of_invoke hhost
    _ = exec i (s.accept b rest) := runCommand_of_decode_ok hdecode

/-- Settles O50: it is the step's own first case. -/
theorem idleBlockStaysIdle : Obligations.IdleBlockStaysIdle :=
  fun _ => step_of_idle

end Sys2Proof.Machine
end

