-- ==== Sys2Proof/Proofs/StateInvariants.lean ====
section
/-! What every step keeps and reset establishes: the frame buffer's canonical form (log entry 1), the address-space invariant (R8, R40)
and the empty command port (R23, R30, R210). -/

namespace Sys2Proof.Machine

/-- Settles O44: every event of the host changes the frame buffer only by byte writes, if at all, and a byte write keeps the canonical
form. -/
theorem stepKeepsFrameCanonical : Obligations.StepKeepsFrameCanonical := by
  intro s t hs hstep
  rcases step_cases s with ⟨_, h⟩ | ⟨b, cw, rest, m, r, k, _, hw, h⟩ | ⟨a, v, rest, _, h⟩ | ⟨rest, _, h⟩ |
    ⟨b, cw, rest, m, k, _, hw, h⟩ <;>
    obtain rfl := Host.Outcome.next.inj (h.symm.trans hstep)
  · exact hs
  · exact hw.wf hs
  · exact write_wf a v hs
  · exact hs
  · exact hw.wf hs

/-- Settles O46: the frame buffer lists nothing after reset, the empty port's bounds are in the address space, and no event is coming. -/
theorem resetMeetsInvariants : Obligations.ResetMeetsInvariants :=
  ⟨⟨.nil, List.forall_mem_nil _⟩, List.forall_mem_nil _, idle_inSpace, List.forall_mem_nil _⟩

/-- Whatever a command does, it ends with an empty port. -/
theorem exec_bounds_idle {i : Instr} {s t : State} (h : exec i s = .next t) : t.bounds = Bounds.idle := by
  obtain ⟨m, r, k, _, heffect⟩ := exec_effect i s
  obtain rfl := Host.Outcome.next.inj (heffect.symm.trans h)
  exact after_bounds s m r k

/-- A step that finds the port empty leaves it empty: an invocation's bounds are there only inside the step. -/
theorem step_bounds_idle {s t : State} (hs : s.bounds = Bounds.idle) (hstep : step s = .next t) :
    t.bounds = Bounds.idle := by
  rcases step_cases s with ⟨_, h⟩ | ⟨b, cw, rest, m, r, k, _, _, h⟩ | ⟨a, v, rest, _, h⟩ | ⟨rest, _, h⟩ |
    ⟨b, cw, rest, m, k, _, _, h⟩ <;>
    obtain rfl := Host.Outcome.next.inj (h.symm.trans hstep)
  · exact hs
  · exact after_bounds _ m r k
  · exact hs
  · rfl
  · rfl

/-- Settles O47: a command empties the port as it responds, and no other step fills it. -/
theorem blockIsIdleBetweenSteps : Obligations.BlockIsIdleBetweenSteps :=
  ⟨fun _ _ _ => exec_bounds_idle, fun _ _ => step_bounds_idle⟩

/-- Settles O49: the fields of the reset state, as written. -/
theorem resetIsIdle : Obligations.ResetIsIdle := ⟨rfl, rfl, rfl⟩

end Sys2Proof.Machine
end

