-- ==== Sys2Proof/Proofs/NoHistory.lean ====
section
/-! The block keeps nothing of earlier invocations (R20, R22, R31). The idea: responses are only ever appended, so a command run after the
responses `log` does what it does with none before it; and the bounds on the port are replaced before any command reads them. Hence every
step does what it does from the state without a history. -/

namespace Sys2Proof.Machine

/-- The same state in a run that had given the responses `log` already. -/
def State.answeredBefore (s : State) (log : List Response) : State := { s with responses := log ++ s.responses }

variable (s : State) (log : List Response)

theorem respond_answeredBefore (r : Response) :
    (s.answeredBefore log).respond r = (s.respond r).answeredBefore log := by
  simp [State.respond, State.answeredBefore]

/-- The same where the state that responds is `s.answeredBefore log` by computation. -/
theorem respond_of_answeredBefore {s s' : State} {log : List Response} (r : Response) (h : s' = s.answeredBefore log) :
    s'.respond r = (s.respond r).answeredBefore log := by
  rw [h, respond_answeredBefore]

theorem compare_answeredBefore (x y : AddrOperand) :
    (s.answeredBefore log).compare x y = (s.compare x y).answeredBefore log := by
  by_cases h : s.operandFits x = true ∧ s.operandFits y = true
  · rw [compare_inside s h.1 h.2]
    exact (compare_inside (s.answeredBefore log) h.1 h.2).trans (respond_answeredBefore s log _)
  · rw [compare_outside s h]
    exact (compare_outside (s.answeredBefore log) h).trans (respond_answeredBefore s log _)

theorem copy_answeredBefore (d : Nat) (x : AddrOperand) :
    (s.answeredBefore log).copy d x = (s.copy d x).answeredBefore log := by
  by_cases h : s.bounds.fits d 4 ∧ s.operandFits x = true
  · rw [copy_inside s h.1 h.2]
    exact (copy_inside (s.answeredBefore log) h.1 h.2).trans (respond_of_answeredBefore _ rfl)
  · rw [copy_outside s h]
    exact (copy_outside (s.answeredBefore log) h).trans (respond_answeredBefore s log _)

variable {s log} in
/-- A command that ends with one and the same response from two states that differ by `log` does the same after `log`. -/
theorem answers_of_respond {i : Instr} {u u' : State} {r : Response} (h : exec i s = .next (u.respond r))
    (h' : exec i (s.answeredBefore log) = .next (u'.respond r)) (hu : u' = u.answeredBefore log) :
    ∃ t, exec i s = .next t ∧ exec i (s.answeredBefore log) = .next (t.answeredBefore log) :=
  ⟨_, h, h'.trans (congrArg _ (respond_of_answeredBefore r hu))⟩

/-- No command reads the responses given before: it does the same after `log`. -/
theorem exec_answeredBefore (i : Instr) :
    ∃ t, exec i s = .next t ∧ exec i (s.answeredBefore log) = .next (t.answeredBefore log) := by
  let s' := s.answeredBefore log
  cases i with
  | parse =>
    by_cases h : s.classify = .ok
    · exact answers_of_respond (exec_parse_ok s h) (exec_parse_ok s' h) rfl
    · exact answers_of_respond (exec_parse_rejected s h) (exec_parse_rejected s' h) rfl
  | csumip v old new =>
    by_cases h : s.bounds.fits v 20
    · exact answers_of_respond (exec_csumip_inside s old new h) (exec_csumip_inside s' old new h) rfl
    · exact answers_of_respond (exec_csumip_outside s old new h) (exec_csumip_outside s' old new h) rfl
  | csumudp c old new => exact answers_of_respond rfl rfl rfl
  | ttldec v =>
    by_cases h : s.bounds.fits v 20
    · by_cases ht : s.load8 (v + 8) = 0
      · exact answers_of_respond (exec_ttldec_expired s h ht) (exec_ttldec_expired s' h ht) rfl
      · exact answers_of_respond (exec_ttldec_alive s h ht) (exec_ttldec_alive s' h ht) rfl
    · exact answers_of_respond (exec_ttldec_outside s h) (exec_ttldec_outside s' h) rfl
  | addreqImmImm a b => exact ⟨_, rfl, congrArg _ (compare_answeredBefore s log (.imm a) (.imm b))⟩
  | addreqViewImm a b => exact ⟨_, rfl, congrArg _ (compare_answeredBefore s log (.view a) (.imm b))⟩
  | addreqImmView a b => exact ⟨_, rfl, congrArg _ (compare_answeredBefore s log (.imm a) (.view b))⟩
  | addreqViewView a b => exact ⟨_, rfl, congrArg _ (compare_answeredBefore s log (.view a) (.view b))⟩
  | addrcpyImm d src => exact ⟨_, rfl, congrArg _ (copy_answeredBefore s log d (.imm src))⟩
  | addrcpyView d src => exact ⟨_, rfl, congrArg _ (copy_answeredBefore s log d (.view src))⟩

theorem runCommand_answeredBefore (cw : CmdWord) :
    ∃ t, runCommand cw s = .next t ∧ runCommand cw (s.answeredBefore log) = .next (t.answeredBefore log) := by
  cases h : decode cw with
  | ok i =>
    rw [runCommand_of_decode_ok h, runCommand_of_decode_ok h]
    exact exec_answeredBefore s log i
  | error e =>
    rw [runCommand_of_decode_error h, runCommand_of_decode_error h]
    exact ⟨_, rfl, congrArg _ (respond_answeredBefore s log _)⟩

theorem scramble_answeredBefore (l : List Nat) :
    State.scramble l (s.answeredBefore log) = (State.scramble l s).answeredBefore log := by
  induction l generalizing s with
  | nil => rfl
  | cons a rest ih => exact ih { s with frame := s.frame.write a (Config.anyByte s.draws), draws := s.draws + 1 }

theorem cutShort_answeredBefore (cw : CmdWord) :
    (s.answeredBefore log).cutShort cw = (s.cutShort cw).answeredBefore log :=
  congrArg State.resetBlock (scramble_answeredBefore s log (s.writeSetOf cw))

/-- The state with the same frame buffer, coming events and draws, and no history: an empty port and no response given. -/
def State.withoutHistory (s : State) : State := { s with bounds := Bounds.idle, responses := [] }

/-- The port of an accepted invocation is the invocation's, and the responses given before stand in front. -/
theorem accept_eq_answeredBefore (b : Bounds) (rest : List HostEvent) :
    s.accept b rest = (s.withoutHistory.accept b rest).answeredBefore s.responses := by
  simp [State.accept, State.withoutHistory, State.answeredBefore]

/-- `t` is `t₀` after the responses `log`, whatever bounds stand on the ports. -/
structure SameAfter (log : List Response) (t₀ t : State) : Prop where
  frame : t.frame = t₀.frame
  host : t.host = t₀.host
  draws : t.draws = t₀.draws
  responses : t.responses = log ++ t₀.responses

theorem sameAfter_answeredBefore : SameAfter log s (s.answeredBefore log) := ⟨rfl, rfl, rfl, rfl⟩

theorem sameAfter_withoutHistory : SameAfter s.responses s.withoutHistory s :=
  ⟨rfl, rfl, rfl, (List.append_nil _).symm⟩

/-- Every step does what it does from the state without a history. -/
theorem step_withoutHistory :
    ∃ t₀ t, step s.withoutHistory = .next t₀ ∧ step s = .next t ∧ SameAfter s.responses t₀ t := by
  have same := sameAfter_withoutHistory s
  cases hhost : s.host with
  | nil => exact ⟨_, _, step_of_idle hhost, step_of_idle hhost, same⟩
  | cons e rest =>
    cases e with
    | invoke b cw =>
      obtain ⟨t, h₀, h⟩ := runCommand_answeredBefore (s.withoutHistory.accept b rest) s.responses cw
      rw [← accept_eq_answeredBefore] at h
      exact ⟨_, _, (step_of_invoke (s := s.withoutHistory) hhost).trans h₀, (step_of_invoke hhost).trans h,
        sameAfter_answeredBefore t s.responses⟩
    | write a v => exact ⟨_, _, step_of_write hhost, step_of_write hhost, rfl, rfl, rfl, same.responses⟩
    | reset => exact ⟨_, _, step_of_reset hhost, step_of_reset hhost, rfl, rfl, rfl, same.responses⟩
    | cut b cw =>
      refine ⟨_, _, step_of_cut hhost, step_of_cut hhost, ?_⟩
      rw [accept_eq_answeredBefore s, cutShort_answeredBefore]
      exact sameAfter_answeredBefore _ s.responses

/-- Settles O48: without their histories the two states are one, so both steps are that state's step, each after its own responses. -/
theorem nothingSurvivesAnInvocation : Obligations.NothingSurvivesAnInvocation := by
  intro s s' t t' hframe hhost hdraws hstep hstep'
  obtain ⟨t₀, u, h₀, hu, same⟩ := step_withoutHistory s
  obtain ⟨t₀', u', h₀', hu', same'⟩ := step_withoutHistory s'
  have hstart : s.withoutHistory = s'.withoutHistory := by
    simp [State.withoutHistory, hframe, hhost, hdraws]
  obtain rfl := Host.Outcome.next.inj (h₀.symm.trans (hstart ▸ h₀'))
  obtain rfl := Host.Outcome.next.inj (hu.symm.trans hstep)
  obtain rfl := Host.Outcome.next.inj (hu'.symm.trans hstep')
  exact ⟨same.frame.trans same'.frame.symm, same.host.trans same'.host.symm, same.draws.trans same'.draws.symm,
    t₀.responses, same.responses, same'.responses⟩

end Sys2Proof.Machine
end

