-- ==== Sys2Proof/Proofs/FrameBuffer.lean ====
section
/-! The frame buffer's byte order in numbers, and the bounds guard (R42, R44 to R46). -/

namespace Sys2Proof.Machine

/-- A byte appended below a value: the value moves up by 256. -/
theorem toNat_append_byte {n : Nat} (x : BitVec n) (y : Byte) : (x ++ y).toNat = x.toNat * 256 + y.toNat := by
  rw [BitVec.toNat_append, ← Nat.shiftLeft_add_eq_or_of_lt y.isLt, Nat.shiftLeft_eq]

theorem read16_toNat (m : Memory) (a : Nat) :
    (m.read16 a).toNat = (m.read a).toNat * 256 + (m.read (a + 1)).toNat :=
  toNat_append_byte _ _

theorem read32_toNat (m : Memory) (a : Nat) :
    (m.read32 a).toNat = (m.read a).toNat * 2 ^ 24 + (m.read (a + 1)).toNat * 2 ^ 16 + (m.read (a + 2)).toNat * 2 ^ 8
      + (m.read (a + 3)).toNat := by
  rw [Memory.read32, toNat_append_byte, toNat_append_byte, toNat_append_byte]
  omega

/-- Settles O40: a read appends its bytes in the order of their addresses, and each byte appended moves the rest up by 256. -/
theorem memReadIsBigEndian : Obligations.MemReadIsBigEndian :=
  fun m a => ⟨read16_toNat m a, read32_toNat m a⟩

/-- Each byte of a two-byte write (R46). -/
theorem read_write16_byte (m : Memory) (a : Nat) (v : Half) (i : Fin 2) :
    (m.write16 a v).read (a + i) = v.extractLsb' (8 * (1 - i)) 8 := by
  fin_cases i <;> simp [Memory.write16, read_write]

/-- Each byte of a four-byte write (R46). -/
theorem read_write32_byte (m : Memory) (a : Nat) (v : Word) (i : Fin 4) :
    (m.write32 a v).read (a + i) = v.extractLsb' (8 * (3 - i)) 8 := by
  fin_cases i <;> simp [Memory.write32, read_write]

/-- Settles O39: each byte of the range is written once, and no other byte is. -/
theorem memWriteIsBigEndian : Obligations.MemWriteIsBigEndian :=
  ⟨fun m a b => ⟨read_write_same m a b, fun _ hx => read_write_other m b hx⟩,
    fun m a v => ⟨read_write16_byte m a v, fun _ hx => read_write16_other m v hx⟩,
    fun m a v => ⟨read_write32_byte m a v, fun _ hx => read_write32_other m v hx⟩⟩

namespace Bounds

variable {b : Bounds} {off n : Nat}

/-- Every byte of a range that fits is inside the bounds (R42, R43). -/
theorem holds_of_fits (h : b.fits off n) {k : Nat} (hk : k < n) : b.Holds (b.start + off + k) := by
  have h : b.start + off + n ≤ b.stop := h
  constructor <;> omega

/-- A range that ends no later than one that fits, fits as well. -/
theorem fits_mono (h : b.fits off n) {off' n' : Nat} (hle : off' + n' ≤ off + n) : b.fits off' n' := by
  have h : b.start + off + n ≤ b.stop := h
  show b.start + off' + n' ≤ b.stop
  omega

/-- Bounds without a byte between them fit nothing (R42). -/
theorem not_fits_of_empty (hempty : b.stop ≤ b.start) (hn : 1 ≤ n) : ¬ b.fits off n := by
  intro h
  have hin := holds_of_fits h hn
  omega

end Bounds

/-- Settles O41: the guard is its inequality, and each consequence follows from every byte of a fitting range being inside the
bounds. -/
theorem boundsGuard : Obligations.BoundsGuard :=
  fun _ _ _ hn =>
    ⟨Iff.rfl, fun hempty => Bounds.not_fits_of_empty hempty hn, fun h _ hk => Bounds.holds_of_fits h hk,
      fun hb h _ hk => addressInSpace_of_holds hb (Bounds.holds_of_fits h hk)⟩

end Sys2Proof.Machine
end

