-- ==== Sys2Proof/Proofs/WriteFrame.lean ====
section
/-! What a command leaves unchanged (R20, R22, R49, R51), and that no invocation writes outside its bounds (R43). -/

namespace Sys2Proof.Machine

variable (s : State)

theorem exec_parse_effect : ∃ r k, exec .parse s = .next (s.after s.frame r k) := by
  by_cases h : s.classify = .ok
  · exact ⟨_, 0, exec_parse_ok s h⟩
  · exact ⟨_, 4, exec_parse_rejected s h⟩

/-- `CSUMIP` writes the two checksum bytes of its header, or nothing. -/
theorem exec_csumip_effect (v : Nat) (old new : Word) :
    ∃ m r, SameBytesOutside (s.bounds.start + v + 10) 2 s.frame m ∧
      exec (.csumip v old new) s = .next (s.after m r 0) := by
  by_cases h : s.bounds.fits v 20
  · exact ⟨_, _, fun _ hx => read_write16_other _ _ hx, exec_csumip_inside s old new h⟩
  · exact ⟨_, _, fun _ _ => rfl, exec_csumip_outside s old new h⟩

/-- The two memories hold the same bytes but for the time-to-live and the checksum of the header at `a`, the three bytes of `TTLDEC`
(R49). -/
def SameBytesButTtlAndChecksum (a : Nat) (m m' : Memory) : Prop :=
  ∀ x, x ≠ a + 8 → x ≠ a + 10 → x ≠ a + 11 → m'.read x = m.read x

/-- `TTLDEC` writes the time-to-live and the two checksum bytes of its header, or nothing. -/
theorem exec_ttldec_effect (v : Nat) :
    ∃ m r, SameBytesButTtlAndChecksum (s.bounds.start + v) s.frame m ∧
      exec (.ttldec v) s = .next (s.after m r 0) := by
  by_cases h : s.bounds.fits v 20
  · by_cases ht : s.load8 (v + 8) = 0
    · exact ⟨_, _, fun _ _ _ _ => rfl, exec_ttldec_expired s h ht⟩
    · exact ⟨_, _, fun _ => decrementTtl_other s v, exec_ttldec_alive s h ht⟩
  · exact ⟨_, _, fun _ _ _ _ => rfl, exec_ttldec_outside s h⟩

/-- `ADDRCPY` writes the four bytes of its destination, or nothing. -/
theorem copy_effect_destination (d : Nat) (x : AddrOperand) :
    ∃ m r, SameBytesOutside (s.bounds.start + d) 4 s.frame m ∧ s.copy d x = s.after m r 0 := by
  by_cases h : s.bounds.fits d 4 ∧ s.operandFits x = true
  · exact ⟨_, _, fun _ hx => read_write32_other _ _ hx, copy_inside s h.1 h.2⟩
  · exact ⟨_, _, fun _ _ => rfl, copy_outside s h⟩

variable {s} in
/-- The frame of a command from what it does: `Kept` is what is known of the frame buffer it leaves. -/
theorem frame_of_effect {i : Instr} {t : State} {m : Memory} {r : Response} {k : Nat} (Kept : Memory → Prop)
    (h : exec i s = .next t) (heffect : exec i s = .next (s.after m r k)) (hdraws : i ≠ .parse → k = 0) (hm : Kept m) :
    t.host = s.host ∧ t.bounds = Bounds.idle ∧ (∃ r, t.responses = s.responses ++ [r]) ∧
      (i ≠ .parse → t.draws = s.draws) ∧ Kept t.frame := by
  obtain rfl := Host.Outcome.next.inj (heffect.symm.trans h)
  exact ⟨rfl, rfl, ⟨r, rfl⟩, fun hi => by rw [after_draws, hdraws hi, Nat.add_zero], hm⟩

/-- Settles O8: each form by the lemma that says which bytes it writes; all else is the shape every command's effect has. -/
theorem commandFrame : Obligations.CommandFrame := by
  intro i s t h
  cases i with
  | parse =>
    obtain ⟨r, k, he⟩ := exec_parse_effect s
    exact frame_of_effect (· = s.frame) h he (fun hne => absurd rfl hne) rfl
  | csumip v old new =>
    obtain ⟨m, r, hm, he⟩ := exec_csumip_effect s v old new
    exact frame_of_effect (SameBytesOutside _ 2 s.frame) h he (fun _ => rfl) hm
  | csumudp c old new => exact frame_of_effect (· = s.frame) h rfl (fun _ => rfl) rfl
  | ttldec v =>
    obtain ⟨m, r, hm, he⟩ := exec_ttldec_effect s v
    exact frame_of_effect (SameBytesButTtlAndChecksum _ s.frame) h he (fun _ => rfl) hm
  | addreqImmImm a b =>
    obtain ⟨r, he⟩ := compare_effect s (.imm a) (.imm b)
    exact frame_of_effect (· = s.frame) h (congrArg _ he) (fun _ => rfl) rfl
  | addreqViewImm a b =>
    obtain ⟨r, he⟩ := compare_effect s (.view a) (.imm b)
    exact frame_of_effect (· = s.frame) h (congrArg _ he) (fun _ => rfl) rfl
  | addreqImmView a b =>
    obtain ⟨r, he⟩ := compare_effect s (.imm a) (.view b)
    exact frame_of_effect (· = s.frame) h (congrArg _ he) (fun _ => rfl) rfl
  | addreqViewView a b =>
    obtain ⟨r, he⟩ := compare_effect s (.view a) (.view b)
    exact frame_of_effect (· = s.frame) h (congrArg _ he) (fun _ => rfl) rfl
  | addrcpyImm d src =>
    obtain ⟨m, r, hm, he⟩ := copy_effect_destination s d (.imm src)
    exact frame_of_effect (SameBytesOutside _ 4 s.frame) h (congrArg _ he) (fun _ => rfl) hm
  | addrcpyView d src =>
    obtain ⟨m, r, hm, he⟩ := copy_effect_destination s d (.view src)
    exact frame_of_effect (SameBytesOutside _ 4 s.frame) h (congrArg _ he) (fun _ => rfl) hm

/-- Settles O42: whatever the word, the frame buffer after its invocation is the one before with some bytes inside the bounds
written. -/
theorem invocationWritesInsideBounds : Obligations.InvocationWritesInsideBounds := by
  intro s t b w rest hhost hstep a ha
  obtain ⟨m, r, k, hw, heffect⟩ := runCommand_effect w (s.accept b rest)
  rw [step_of_invoke hhost, heffect] at hstep
  obtain rfl := Host.Outcome.next.inj hstep
  have hout : ¬ b.Holds a := by
    rintro ⟨hlow, hhigh⟩
    omega
  exact hw.outside hout

end Sys2Proof.Machine
end

