-- ==== Sys2Proof/Proofs/ReadFrame.lean ====
section
/-! No invocation can learn a byte outside its bounds (R43). Two states whose frame buffers agree inside the bounds are run side by side:
every read of a command is guarded by a fit, so it gives the same value in both, and both then write the same bytes and give the same
response. -/

namespace Sys2Proof.Machine

/-! ### Frame buffers that agree inside the bounds -/

namespace AgreeInside

variable {b : Bounds} {m m' : Memory}

theorem write (h : AgreeInside b m m') (a : Nat) (v : Byte) : AgreeInside b (m.write a v) (m'.write a v) := by
  intro x hx
  rw [read_write, read_write, h x hx]

theorem write16 (h : AgreeInside b m m') (a : Nat) (v : Half) : AgreeInside b (m.write16 a v) (m'.write16 a v) :=
  (h.write _ _).write _ _

theorem write32 (h : AgreeInside b m m') (a : Nat) (v : Word) : AgreeInside b (m.write32 a v) (m'.write32 a v) :=
  (((h.write _ _).write _ _).write _ _).write _ _

theorem read_of_fits (h : AgreeInside b m m') {off n k : Nat} (hf : b.fits off n) (hk : k < n) :
    m.read (b.start + off + k) = m'.read (b.start + off + k) :=
  h _ (Bounds.holds_of_fits hf hk)

end AgreeInside

/-! ### States that look alike from inside the bounds -/

/-- Nothing a reader inside the bounds `b`, who also sees the responses and the draws, can tell the two states by. -/
structure AlikeInside (b : Bounds) (s s' : State) : Prop where
  frame : AgreeInside b s.frame s'.frame
  responses : s.responses = s'.responses
  draws : s.draws = s'.draws

/-- The two states run a command under the same bounds and look alike from inside them. -/
structure RunAlike (s s' : State) : Prop where
  bounds : s'.bounds = s.bounds
  alike : AlikeInside s.bounds s s'

namespace RunAlike

variable {s s' : State} (h : RunAlike s s')

include h

theorem fits_iff (off n : Nat) : s'.bounds.fits off n ↔ s.bounds.fits off n := by rw [h.bounds]

theorem load8 {off : Nat} (hf : s.bounds.fits off 1) : s.load8 off = s'.load8 off := by
  rw [load8_eq, load8_eq, h.bounds]
  exact h.alike.frame.read_of_fits hf Nat.zero_lt_one

theorem load16 {off : Nat} (hf : s.bounds.fits off 2) : s.load16 off = s'.load16 off := by
  rw [load16_eq, load16_eq, h.bounds]
  exact read16_congr (h.alike.frame.read_of_fits hf Nat.zero_lt_two) (h.alike.frame.read_of_fits hf Nat.one_lt_two)

theorem load32 {off : Nat} (hf : s.bounds.fits off 4) : s.load32 off = s'.load32 off := by
  rw [load32_eq, load32_eq, h.bounds]
  exact read32_congr fun _ hi => h.alike.frame.read_of_fits hf hi

theorem addr (off : Nat) : s'.addr off = s.addr off := by rw [State.addr, State.addr, h.bounds]

/-- The frame buffers replaced by two that agree inside the bounds. -/
theorem withFrame {m m' : Memory} (hm : AgreeInside s.bounds m m') :
    RunAlike { s with frame := m } { s' with frame := m' } :=
  ⟨h.bounds, hm, h.alike.responses, h.alike.draws⟩

theorem store8 (off : Nat) {v v' : Byte} (hv : v = v') : RunAlike (s.store8 off v) (s'.store8 off v') := by
  rw [State.store8, State.store8, h.addr, hv]
  exact h.withFrame (h.alike.frame.write _ _)

theorem store16 (off : Nat) {v v' : Half} (hv : v = v') : RunAlike (s.store16 off v) (s'.store16 off v') := by
  rw [State.store16, State.store16, h.addr, hv]
  exact h.withFrame (h.alike.frame.write16 _ _)

theorem store32 (off : Nat) {v v' : Word} (hv : v = v') : RunAlike (s.store32 off v) (s'.store32 off v') := by
  rw [State.store32, State.store32, h.addr, hv]
  exact h.withFrame (h.alike.frame.write32 _ _)

theorem respond {r r' : Response} (hr : r = r') : AlikeInside s.bounds (s.respond r) (s'.respond r') where
  frame := h.alike.frame
  responses := by rw [respond_responses, respond_responses, h.alike.responses, hr]
  draws := h.alike.draws

theorem raise (f : Status) : AlikeInside s.bounds (s.raise f) (s'.raise f) := h.respond rfl

theorem respondRejected {o o' : ParseOutcome} (ho : o = o') :
    AlikeInside s.bounds (s.respondRejected o) (s'.respondRejected o') where
  frame := h.alike.frame
  responses := by rw [respondRejected_responses, respondRejected_responses, h.alike.responses, h.alike.draws, ho]
  draws := by rw [respondRejected_draws, respondRejected_draws, h.alike.draws]

/-! ### Commands side by side -/

/-- A classification reads nothing before the frame is long enough for it (R92 to R101). -/
theorem classify : s.classify = s'.classify := by
  by_cases hip : s.bounds.fits 14 20
  · have hetype := h.load16 (off := 12) (Bounds.fits_mono hip (by omega))
    have hihl := h.load8 (off := 14) (Bounds.fits_mono hip (by omega))
    have hfrag := h.load16 (off := 20) (Bounds.fits_mono hip (by omega))
    have httl := h.load8 (off := 22) (Bounds.fits_mono hip (by omega))
    have hproto := h.load8 (off := 23) (Bounds.fits_mono hip (by omega))
    simp [State.classify, State.ihl, State.fragmented, h.bounds, hetype, hihl, hfrag, httl, hproto]
  · by_cases heth : s.bounds.fits 0 14
    · have hetype := h.load16 (off := 12) (Bounds.fits_mono heth (by omega))
      simp [State.classify, h.bounds, hetype, hip]
    · simp [State.classify, h.bounds, heth]

theorem operandFits (x : AddrOperand) : s'.operandFits x = s.operandFits x := by
  cases x with
  | imm x => rfl
  | view v => exact decide_eq_decide.mpr (h.fits_iff v 4)

theorem addrVal {x : AddrOperand} (hx : s.operandFits x = true) : s.addrVal x = s'.addrVal x := by
  cases x with
  | imm x => rfl
  | view v => exact h.load32 ((operandFits_view s v).mp hx)

theorem compare (x y : AddrOperand) : AlikeInside s.bounds (s.compare x y) (s'.compare x y) := by
  by_cases hf : s.operandFits x = true ∧ s.operandFits y = true
  · obtain ⟨hx, hy⟩ := hf
    rw [compare_inside s hx hy, compare_inside s' ((h.operandFits x).trans hx) ((h.operandFits y).trans hy)]
    exact h.respond (by rw [h.addrVal hx, h.addrVal hy])
  · rw [compare_outside s hf, compare_outside s' (by rwa [h.operandFits, h.operandFits])]
    exact h.raise _

theorem copy (d : Nat) (x : AddrOperand) : AlikeInside s.bounds (s.copy d x) (s'.copy d x) := by
  by_cases hf : s.bounds.fits d 4 ∧ s.operandFits x = true
  · obtain ⟨hd, hx⟩ := hf
    rw [copy_inside s hd hx, copy_inside s' ((h.fits_iff d 4).mpr hd) ((h.operandFits x).trans hx)]
    exact (h.store32 d (h.addrVal hx)).respond rfl
  · rw [copy_outside s hf, copy_outside s' (by rwa [h.fits_iff, h.operandFits])]
    exact h.raise _

theorem decrementTtl {v : Nat} (hf : s.bounds.fits v 20) : RunAlike (s.decrementTtl v) (s'.decrementTtl v) := by
  have hcsum := h.load16 (off := v + 10) (Bounds.fits_mono hf (by omega))
  have httl := h.load8 (off := v + 8) (Bounds.fits_mono hf (by omega))
  exact (h.store16 (v + 10) (congrArg ttlCsum hcsum)).store8 (v + 8) (congrArg (· - 1) httl)

/-- Every command does to both states what looks the same from inside the bounds. -/
theorem exec_ends_alike (i : Instr) :
    ∃ t t', exec i s = .next t ∧ exec i s' = .next t' ∧ AlikeInside s.bounds t t' := by
  cases i with
  | parse =>
    by_cases hok : s.classify = .ok
    · exact ⟨_, _, exec_parse_ok s hok, exec_parse_ok s' (h.classify ▸ hok), h.respond rfl⟩
    · exact ⟨_, _, exec_parse_rejected s hok, exec_parse_rejected s' (h.classify ▸ hok), h.respondRejected h.classify⟩
  | csumip v old new =>
    by_cases hf : s.bounds.fits v 20
    · have hcsum := h.load16 (off := v + 10) (Bounds.fits_mono hf (by omega))
      exact ⟨_, _, exec_csumip_inside s old new hf, exec_csumip_inside s' old new ((h.fits_iff v 20).mpr hf),
        (h.store16 (v + 10) (by rw [hcsum])).respond rfl⟩
    · exact ⟨_, _, exec_csumip_outside s old new hf, exec_csumip_outside s' old new (mt (h.fits_iff v 20).mp hf),
        h.raise _⟩
  | csumudp c old new => exact ⟨_, _, rfl, rfl, h.respond rfl⟩
  | ttldec v =>
    by_cases hf : s.bounds.fits v 20
    · have hf' := (h.fits_iff v 20).mpr hf
      have httl := h.load8 (off := v + 8) (Bounds.fits_mono hf (by omega))
      by_cases ht : s.load8 (v + 8) = 0
      · exact ⟨_, _, exec_ttldec_expired s hf ht, exec_ttldec_expired s' hf' (httl ▸ ht), h.raise _⟩
      · exact ⟨_, _, exec_ttldec_alive s hf ht, exec_ttldec_alive s' hf' (httl ▸ ht), (h.decrementTtl hf).respond rfl⟩
    · exact ⟨_, _, exec_ttldec_outside s hf, exec_ttldec_outside s' (mt (h.fits_iff v 20).mp hf), h.raise _⟩
  | addreqImmImm a b => exact ⟨_, _, rfl, rfl, h.compare (.imm a) (.imm b)⟩
  | addreqViewImm a b => exact ⟨_, _, rfl, rfl, h.compare (.view a) (.imm b)⟩
  | addreqImmView a b => exact ⟨_, _, rfl, rfl, h.compare (.imm a) (.view b)⟩
  | addreqViewView a b => exact ⟨_, _, rfl, rfl, h.compare (.view a) (.view b)⟩
  | addrcpyImm d src => exact ⟨_, _, rfl, rfl, h.copy d (.imm src)⟩
  | addrcpyView d src => exact ⟨_, _, rfl, rfl, h.copy d (.view src)⟩

/-- The same of a command word, legal or not. -/
theorem runCommand_ends_alike (cw : CmdWord) :
    ∃ t t', runCommand cw s = .next t ∧ runCommand cw s' = .next t' ∧ AlikeInside s.bounds t t' := by
  cases hd : decode cw with
  | ok i =>
    rw [runCommand_of_decode_ok hd, runCommand_of_decode_ok hd]
    exact h.exec_ends_alike i
  | error e => exact ⟨_, _, runCommand_of_decode_error hd, runCommand_of_decode_error hd, h.raise _⟩

end RunAlike

/-- Settles O43: the two states accept the invocation alike, so the command ends alike in both. -/
theorem invocationReadsInsideBounds : Obligations.InvocationReadsInsideBounds := by
  intro s s' t t' b w rest hhost hhost' hresponses hdraws hframe hstep hstep'
  have haccept : RunAlike (s.accept b rest) (s'.accept b rest) := ⟨rfl, hframe, hresponses, hdraws⟩
  obtain ⟨u, u', hu, hu', halike⟩ := haccept.runCommand_ends_alike w
  rw [step_of_invoke hhost, hu] at hstep
  rw [step_of_invoke hhost', hu'] at hstep'
  obtain rfl := Host.Outcome.next.inj hstep
  obtain rfl := Host.Outcome.next.inj hstep'
  exact ⟨halike.responses, halike.draws, halike.frame⟩

end Sys2Proof.Machine
end

