-- ==== Sys2Proof/Proofs/Encoding.lean ====
section
/-! Decoding and encoding (R61 to R71, R81). The encoder's words are decoded back, a legal word is some command's, and the decoder
rejects the others; that they invert each other follows from these three. -/

namespace Sys2Proof

/-! ### Views and values in a field (R63, R68) -/

@[simp] theorem upperHalf_viewField (v : Nat) : upperHalf (viewField v) = 0 := by
  rw [upperHalf, viewField, BitVec.extractLsb'_append_eq_left]

theorem viewOf_viewField {v : Nat} (hv : viewInRange v = true) : viewOf (viewField v) = v := by
  rw [viewOf, viewField, BitVec.extractLsb'_append_eq_right, BitVec.toNat_ofNat]
  exact Nat.mod_eq_of_lt (of_decide_eq_true hv)

theorem toNat_ofNat_view {v : Nat} (hv : viewInRange v = true) : (BitVec.ofNat 16 v).toNat = v :=
  Nat.mod_eq_of_lt (of_decide_eq_true hv)

/-- Every 16-bit field names a view (R68). -/
theorem exists_view_of_half (x : Half) : ∃ v, viewInRange v = true ∧ BitVec.ofNat 16 v = x :=
  ⟨x.toNat, decide_eq_true x.isLt, BitVec.ofNat_toNat 16 x ▸ BitVec.setWidth_eq x⟩

/-- A 32-bit field with a zero upper half is a view's field (R63). -/
theorem exists_view_of_upperHalf {x : Word} (hx : upperHalf x = 0) : ∃ v, viewInRange v = true ∧ viewField v = x := by
  obtain ⟨v, hv, hlow⟩ := exists_view_of_half (x.extractLsb' 0 16)
  refine ⟨v, hv, ?_⟩
  calc viewField v = upperHalf x ++ x.extractLsb' 0 16 := by rw [viewField, hlow, hx]
    _ = x := (BitVec.extractLsb'_append_extractLsb'_eq_extractLsb' rfl).trans BitVec.extractLsb'_eq_self

@[simp] theorem operandOf_imm (x : Word) : operandOf 0#1 x = some (.imm x) := rfl

theorem operandOf_view {v : Nat} (hv : viewInRange v = true) : operandOf 1#1 (viewField v) = some (.view v) := by
  rw [operandOf, if_neg (by decide), if_pos (upperHalf_viewField v), viewOf_viewField hv]

/-- An operand is rejected only for the upper half of a view (R68). -/
theorem upperHalf_of_operandOf {m : BitVec 1} {x : Word} {o : AddrOperand} (h : operandOf m x = some o) (hm : m = 1) :
    upperHalf x = 0 := by
  subst hm
  by_contra hx
  rw [operandOf, if_neg (by decide), if_neg hx] at h
  cases h

/-! ### The decoder and legality -/

/-- The conditions of R70 on the fields of a command word. -/
structure Fields.Legal (f : Fields) : Prop where
  opcode : 1 ≤ f.opc.toNat ∧ f.opc.toNat ≤ 6
  reserved : f.rsv = 0
  unused : unusedFieldsZero f = true
  upperA : f.am = 1 → upperHalf f.a = 0
  upperB : f.bm = 1 → upperHalf f.b = 0

theorem legal_iff (w : CmdWord) : legal w = true ↔ (fieldsOf w).Legal := by
  simp only [legal, Bool.and_eq_true, Bool.or_eq_true, decide_eq_true_eq, beq_iff_eq, bne_iff_ne, ne_eq, ← imp_iff_not_or]
  exact ⟨fun ⟨⟨⟨⟨ho, hr⟩, hu⟩, ha⟩, hb⟩ => ⟨ho, hr, hu, ha, hb⟩, fun ⟨ho, hr, hu, ha, hb⟩ => ⟨⟨⟨⟨ho, hr⟩, hu⟩, ha⟩, hb⟩⟩

theorem decodeFields_fields {i : Instr} (hi : i.WellFormed) : decodeFields i.fields = .ok i := by
  cases i with
  | parse => rfl
  | csumip v old new => exact congrArg (fun n => Except.ok (Instr.csumip n old new)) (toNat_ofNat_view hi)
  | csumudp c old new => rfl
  | ttldec v => exact congrArg (fun n => Except.ok (Instr.ttldec n)) (toNat_ofNat_view hi)
  | addreqImmImm a b => rfl
  | addreqViewImm a b =>
    simp [decodeFields, decodeAddreq, Instr.fields, operandOf_view hi]
  | addreqImmView a b =>
    simp [decodeFields, decodeAddreq, Instr.fields, operandOf_view hi]
  | addreqViewView a b =>
    obtain ⟨ha, hb⟩ := Bool.and_eq_true_iff.mp hi
    simp [decodeFields, decodeAddreq, Instr.fields, operandOf_view ha, operandOf_view hb]
  | addrcpyImm d src => exact congrArg (fun n => Except.ok (Instr.addrcpyImm n src)) (toNat_ofNat_view hi)
  | addrcpyView d src =>
    obtain ⟨hd, hs⟩ := Bool.and_eq_true_iff.mp hi
    simp [decodeFields, decodeAddrcpy, Instr.fields, operandOf_view hs, toNat_ofNat_view hd]

/-- Decoding inverts encoding (R81). -/
theorem decode_encode {i : Instr} (hi : i.WellFormed) : decode (encode i) = .ok i := by
  rw [decode, encode, fieldsOf_assemble, decodeFields_fields hi]

section Rejection

/-! What a decoder that gives a command has found zero: the conditions of R67 and R68, opcode by opcode. -/

variable {f : Fields} {i : Instr}

theorem decodeParse_ok (h : decodeParse f = .ok i) : f.am = 0 ∧ f.bm = 0 ∧ f.v = 0 ∧ f.a = 0 ∧ f.b = 0 := by
  rw [decodeParse] at h
  split_ifs at h with hmode hunused
  simp_all

theorem decodeCsumip_ok (h : decodeCsumip f = .ok i) : f.am = 0 ∧ f.bm = 0 := by
  rw [decodeCsumip] at h
  split_ifs at h with hmode
  simp_all

theorem decodeCsumudp_ok (h : decodeCsumudp f = .ok i) : f.am = 0 ∧ f.bm = 0 := by
  rw [decodeCsumudp] at h
  split_ifs at h with hmode
  simp_all

theorem decodeTtldec_ok (h : decodeTtldec f = .ok i) : f.am = 0 ∧ f.bm = 0 ∧ f.a = 0 ∧ f.b = 0 := by
  rw [decodeTtldec] at h
  split_ifs at h with hmode hunused
  simp_all

theorem decodeAddreq_ok (h : decodeAddreq f = .ok i) :
    f.v = 0 ∧ (f.am = 1 → upperHalf f.a = 0) ∧ (f.bm = 1 → upperHalf f.b = 0) := by
  rw [decodeAddreq] at h
  split_ifs at h with hv
  cases ha : operandOf f.am f.a with
  | none => simp [ha] at h
  | some x =>
    cases hb : operandOf f.bm f.b with
    | none => simp [hb] at h
    | some y => exact ⟨not_not.mp hv, upperHalf_of_operandOf ha, upperHalf_of_operandOf hb⟩

theorem decodeAddrcpy_ok (h : decodeAddrcpy f = .ok i) :
    f.am = 0 ∧ f.a = 0 ∧ (f.bm = 1 → upperHalf f.b = 0) := by
  rw [decodeAddrcpy] at h
  split_ifs at h with hmode ha
  cases hb : operandOf f.bm f.b with
  | none => simp [hb] at h
  | some y => exact ⟨not_not.mp hmode, not_not.mp ha, upperHalf_of_operandOf hb⟩

/-- A word that is not legal is rejected. -/
theorem legal_of_decodeFields (h : decodeFields f = .ok i) : f.Legal := by
  rw [decodeFields] at h
  split_ifs at h with hrsv
  have hrsv : f.rsv = 0 := not_not.mp hrsv
  split at h
  case h_1 hopc =>
    have hzero := decodeParse_ok h
    exact ⟨by omega, hrsv, by simp [unusedFieldsZero, hopc, hzero], by simp [hzero], by simp [hzero]⟩
  case h_2 hopc =>
    have hzero := decodeCsumip_ok h
    exact ⟨by omega, hrsv, by simp [unusedFieldsZero, hopc, hzero], by simp [hzero], by simp [hzero]⟩
  case h_3 hopc =>
    have hzero := decodeCsumudp_ok h
    exact ⟨by omega, hrsv, by simp [unusedFieldsZero, hopc, hzero], by simp [hzero], by simp [hzero]⟩
  case h_4 hopc =>
    have hzero := decodeTtldec_ok h
    exact ⟨by omega, hrsv, by simp [unusedFieldsZero, hopc, hzero], by simp [hzero], by simp [hzero]⟩
  case h_5 hopc =>
    obtain ⟨hv, ha, hb⟩ := decodeAddreq_ok h
    exact ⟨by omega, hrsv, by simp [unusedFieldsZero, hopc, hv], ha, hb⟩
  case h_6 hopc =>
    obtain ⟨ham, ha, hb⟩ := decodeAddrcpy_ok h
    exact ⟨by omega, hrsv, by simp [unusedFieldsZero, hopc, ham, ha], by simp [ham], hb⟩
  case h_7 => cases h

end Rejection

/-- Legal fields are the fields of a command: by the opcode, and for `ADDREQ` and `ADDRCPY` by the mode bits (R74). -/
theorem exists_fields_of_legal {f : Fields} (h : f.Legal) : ∃ i : Instr, i.WellFormed ∧ i.fields = f := by
  obtain ⟨opc, am, bm, rsv, v, a, b⟩ := f
  obtain ⟨hopc, hrsv, hunused, ha, hb⟩ := h
  dsimp only at hopc hrsv hunused ha hb
  subst hrsv
  have hopc : opc = 1 ∨ opc = 2 ∨ opc = 3 ∨ opc = 4 ∨ opc = 5 ∨ opc = 6 := by bv_omega
  rcases hopc with rfl | rfl | rfl | rfl | rfl | rfl
  · obtain ⟨rfl, rfl, rfl, rfl, rfl⟩ : am = 0 ∧ bm = 0 ∧ v = 0 ∧ a = 0 ∧ b = 0 := by
      simpa [unusedFieldsZero, and_assoc] using hunused
    exact ⟨.parse, rfl, rfl⟩
  · obtain ⟨rfl, rfl⟩ : am = 0 ∧ bm = 0 := by simpa [unusedFieldsZero] using hunused
    obtain ⟨n, hn, rfl⟩ := exists_view_of_half v
    exact ⟨.csumip n a b, hn, rfl⟩
  · obtain ⟨rfl, rfl⟩ : am = 0 ∧ bm = 0 := by simpa [unusedFieldsZero] using hunused
    exact ⟨.csumudp v a b, rfl, rfl⟩
  · obtain ⟨rfl, rfl, rfl, rfl⟩ : am = 0 ∧ bm = 0 ∧ a = 0 ∧ b = 0 := by
      simpa [unusedFieldsZero, and_assoc] using hunused
    obtain ⟨n, hn, rfl⟩ := exists_view_of_half v
    exact ⟨.ttldec n, hn, rfl⟩
  · obtain rfl : v = 0 := by simpa [unusedFieldsZero] using hunused
    rcases BitVec.eq_zero_or_eq_one am with rfl | rfl <;> rcases BitVec.eq_zero_or_eq_one bm with rfl | rfl
    · exact ⟨.addreqImmImm a b, rfl, rfl⟩
    · obtain ⟨n, hn, rfl⟩ := exists_view_of_upperHalf (hb rfl)
      exact ⟨.addreqImmView a n, hn, rfl⟩
    · obtain ⟨n, hn, rfl⟩ := exists_view_of_upperHalf (ha rfl)
      exact ⟨.addreqViewImm n b, hn, rfl⟩
    · obtain ⟨n, hn, rfl⟩ := exists_view_of_upperHalf (ha rfl)
      obtain ⟨k, hk, rfl⟩ := exists_view_of_upperHalf (hb rfl)
      exact ⟨.addreqViewView n k, Bool.and_eq_true_iff.mpr ⟨hn, hk⟩, rfl⟩
  · obtain ⟨rfl, rfl⟩ : am = 0 ∧ a = 0 := by simpa [unusedFieldsZero] using hunused
    obtain ⟨n, hn, rfl⟩ := exists_view_of_half v
    rcases BitVec.eq_zero_or_eq_one bm with rfl | rfl
    · exact ⟨.addrcpyImm n b, hn, rfl⟩
    · obtain ⟨k, hk, rfl⟩ := exists_view_of_upperHalf (hb rfl)
      exact ⟨.addrcpyView n k, Bool.and_eq_true_iff.mpr ⟨hn, hk⟩, rfl⟩

theorem exists_encode_of_legal {w : CmdWord} (h : legal w = true) : ∃ i : Instr, i.WellFormed ∧ encode i = w := by
  obtain ⟨i, hi, hf⟩ := exists_fields_of_legal ((legal_iff w).mp h)
  exact ⟨i, hi, by rw [encode, hf, assemble_fieldsOf]⟩

theorem legal_of_decode {w : CmdWord} {i : Instr} (h : decode w = .ok i) : legal w = true :=
  (legal_iff w).mpr (legal_of_decodeFields h)

/-- Encoding inverts decoding: the word is legal, so it is some command's, and decodes to no other. -/
theorem encode_of_decode {w : CmdWord} {i : Instr} (h : decode w = .ok i) : encode i = w := by
  obtain ⟨j, hj, rfl⟩ := exists_encode_of_legal (legal_of_decode h)
  rw [decode_encode hj] at h
  rw [Except.ok.inj h]

/-! ### The obligations -/

/-- Settles O1: `decode_encode` on the commands and `exists_encode_of_legal` on the words; a decoder that inverts the encoder makes it
injective. -/
theorem decodeEncodeRoundTrip : Obligations.DecodeEncodeRoundTrip := by
  refine ⟨fun i => decode_encode, fun w hw => ?_, fun i j hi hj heq => ?_⟩
  · obtain ⟨i, hi, rfl⟩ := exists_encode_of_legal hw
    exact ⟨i, hi, decode_encode hi, rfl⟩
  · exact Except.ok.inj (by rw [← decode_encode hi, heq, decode_encode hj])

/-- Settles O2: a legal word is some command's encoding, and the decoder rejects every other word. -/
theorem legalWordsAreTheCommands : Obligations.LegalWordsAreTheCommands := by
  refine fun w => ⟨fun hw => ?_, fun ⟨i, hi⟩ => legal_of_decode hi⟩
  obtain ⟨i, hi, rfl⟩ := exists_encode_of_legal hw
  exact ⟨i, decode_encode hi⟩

theorem encode_and_decode {i : Instr} {w : CmdWord} (hi : i.WellFormed) (h : encode i = w) :
    encode i = w ∧ decode w = .ok i :=
  ⟨h, h ▸ decode_encode hi⟩

/-- Settles O4: each line's encoding is computed, and its decoding is `decode_encode`. -/
theorem workedEncodings : Obligations.WorkedEncodings :=
  ⟨encode_and_decode rfl rfl, encode_and_decode rfl rfl, encode_and_decode rfl rfl, encode_and_decode rfl rfl,
    encode_and_decode rfl rfl, encode_and_decode rfl rfl, encode_and_decode rfl rfl, encode_and_decode rfl rfl⟩

end Sys2Proof
end

