-- ==== Sys2Proof/Proofs/OpcodeTable.lean ====
section
/-! The ten match and mask rows of the opcode table, which a word passes field by field (R74). -/

namespace Sys2Proof

theorem and_eq_iff_of_ones {n : Nat} {x g y : BitVec n} (hg : g = BitVec.allOnes n) : x &&& g = y ↔ x = y := by
  rw [hg, BitVec.and_allOnes]

/-- The mask of a view's field tests the upper half (R74). -/
theorem masked_upperHalf {x : Word} : x &&& 0xFFFF0000#32 = 0#32 ↔ upperHalf x = 0#16 := by
  constructor
  · intro h
    calc upperHalf x = upperHalf (x &&& 0xFFFF0000#32) := by
          rw [upperHalf, upperHalf, BitVec.extractLsb'_and]
          exact BitVec.and_allOnes.symm
      _ = 0 := by rw [h]; rfl
  · intro h
    obtain ⟨v, -, rfl⟩ := exists_view_of_upperHalf h
    exact Laws.TableRow.viewField_and v

theorem Fields.and_eq_iff (f g h : Fields) : f.and g = h ↔
    f.opc &&& g.opc = h.opc ∧ f.am &&& g.am = h.am ∧ f.bm &&& g.bm = h.bm ∧ f.rsv &&& g.rsv = h.rsv ∧
      f.v &&& g.v = h.v ∧ f.a &&& g.a = h.a ∧ f.b &&& g.b = h.b := by
  rw [Fields.and, ← Fields.mk.injEq]

/-- A row selects legal words only: what its mask leaves free, legality leaves free too (R70, R74). -/
theorem legal_of_rowSelects {row : CmdWord × CmdWord} {w : CmdWord} (hrow : row ∈ opcodeTable)
    (h : rowSelects row w = true) : legal w = true := by
  rw [rowSelects_iff, Fields.and_eq_iff] at h
  rw [legal_iff]
  generalize fieldsOf w = f at *
  simp only [opcodeTable, List.mem_cons, List.not_mem_nil, or_false] at hrow
  rcases hrow with rfl | rfl | rfl | rfl | rfl | rfl | rfl | rfl | rfl | rfl
  -- `h` becomes the row's line of R74: a value for each field the mask covers, a zero upper half for each view.
  all_goals
    simp (disch := decide) only [fieldsOf, BitVec.reduceExtractLsb', and_eq_iff_of_ones, masked_upperHalf, BitVec.and_zero,
      and_self, and_true, true_and] at h
    constructor <;> simp [unusedFieldsZero, h]

open Laws in
/-- `TableRow.Statement` of every command. -/
theorem row_selects_encode (i : Instr) : TableRow.Statement i := by
  cases i with
  | parse => exact TableRow.parse
  | csumip v old new => exact TableRow.csumip v old new
  | csumudp c old new => exact TableRow.csumudp c old new
  | ttldec v => exact TableRow.ttldec v
  | addreqImmImm a b => exact TableRow.addreqImmImm a b
  | addreqViewImm a b => exact TableRow.addreqViewImm a b
  | addreqImmView a b => exact TableRow.addreqImmView a b
  | addreqViewView a b => exact TableRow.addreqViewView a b
  | addrcpyImm d src => exact TableRow.addrcpyImm d src
  | addrcpyView d src => exact TableRow.addrcpyView d src

/-- Every mask covers bits 15:0 (opcode, modes, `RSV`), so a selected word has the row's own there. -/
theorem lowHalf_of_rowSelects {row : CmdWord × CmdWord} {w : CmdWord}
    (hmask : row.2.extractLsb' 0 16 = BitVec.allOnes 16) (h : rowSelects row w = true) :
    w.extractLsb' 0 16 = row.1.extractLsb' 0 16 := by
  rw [← beq_iff_eq.mp h, BitVec.extractLsb'_and, hmask, BitVec.and_allOnes]

theorem mask_lowHalf : ∀ k : Fin 10, (opcodeTable.getD k (0, 0)).2.extractLsb' 0 16 = BitVec.allOnes 16 := by decide

theorem match_lowHalf_inj : ∀ j k : Fin 10,
    (opcodeTable.getD j (0, 0)).1.extractLsb' 0 16 = (opcodeTable.getD k (0, 0)).1.extractLsb' 0 16 → j = k := by
  decide

/-- Settles O3: a legal word is an encoding, which its form's row selects; a selected word is legal; the rows differ in bits 15:0, which
every mask covers. -/
theorem opcodeTablePartitionsLegalWords : Obligations.OpcodeTablePartitionsLegalWords := by
  refine ⟨fun w => ⟨fun hw => ?_, fun ⟨row, hrow, hsel⟩ => legal_of_rowSelects hrow hsel⟩,
    fun w j k hj hk => ?_, fun w i hdecode => ?_⟩
  · obtain ⟨i, -, rfl⟩ := exists_encode_of_legal hw
    obtain ⟨row, hrow, hsel⟩ := row_selects_encode i
    exact ⟨row, List.mem_of_getElem? hrow, hsel⟩
  · exact match_lowHalf_inj j k
      ((lowHalf_of_rowSelects (mask_lowHalf j) hj).symm.trans (lowHalf_of_rowSelects (mask_lowHalf k) hk))
  · obtain rfl := encode_of_decode hdecode
    obtain ⟨row, hrow, hsel⟩ := row_selects_encode i
    rwa [List.getD_eq_getElem?_getD, hrow, Option.getD_some]

end Sys2Proof
end

