-- ==== Sys2Proof/Proofs/Responses.lean ====
section
/-! The response word (R75 to R77), the answer to an illegal word (R71, R184), and the result fields of every command (R78). -/

namespace Sys2Proof.Machine

/-- Settles O36: each field is the low end of what stands above the fields before it. -/
theorem responseWordLayout : Obligations.ResponseWordLayout := by
  intro r
  rw [Response.word]
  refine ⟨BitVec.extractLsb'_append_eq_right, ?_⟩
  rw [BitVec.extractLsb'_append_eq_of_le (by decide)]
  refine ⟨BitVec.extractLsb'_append_eq_right, ?_⟩
  simp only [BitVec.extractLsb'_append_eq_of_le, Nat.reduceLeDiff, Nat.reduceSub]
  exact ⟨BitVec.extractLsb'_append_eq_right, BitVec.extractLsb'_append_eq_right, BitVec.extractLsb'_append_eq_right,
    BitVec.extractLsb'_eq_self⟩

theorem outcome_code_le (o : ParseOutcome) : o.code.toNat ≤ 7 := by cases o <;> decide

theorem status_code_le (c : Status) : c.code.toNat ≤ 3 := by cases c <;> decide

/-- Settles O37: the codes are read off, and bounded outcome by outcome and status by status. -/
theorem outcomeAndStatusCodes : Obligations.OutcomeAndStatusCodes :=
  ⟨⟨rfl, rfl, rfl, rfl, rfl, rfl, rfl, rfl⟩, ⟨rfl, rfl, rfl, rfl⟩, outcome_code_le, status_code_le⟩

/-- Settles O5: the decoder rejects a word that is not legal, and a rejected word raises `ERR_ILLEGAL`. -/
theorem illegalWordsAreRefused : Obligations.IllegalWordsAreRefused := by
  intro s b w rest hhost hillegal
  have herror : ∃ e, decode w = .error e := by
    cases hdecode : decode w with
    | ok i => exact absurd (legal_of_decode hdecode) (by simp [hillegal])
    | error e => exact ⟨e, rfl⟩
  obtain ⟨e, he⟩ := herror
  calc step s = runCommand w (s.accept b rest) := step_of_invoke hhost
    _ = .next ((s.accept b rest).raise .errIllegal) := runCommand_of_decode_error he

/-- What a command other than `PARSE` answers: a fault, or `DONE` with `x` in `RES0` (R78, R183). -/
def Response.FaultedOrDone (r : Response) (x : Half) : Prop :=
  (∃ f, f ≠ .done ∧ r = .faulted f) ∨ r = .doneWith x

/-- From `s` to `t` one response is added: a fault, or `DONE` with `x`. -/
def State.Answers (s t : State) (x : Half) : Prop :=
  ∃ r, t.responses = s.responses ++ [r] ∧ r.FaultedOrDone x

variable (s : State)

theorem answers_raise {f : Status} (hf : f ≠ .done) (x : Half) : s.Answers (s.raise f) x :=
  ⟨_, rfl, .inl ⟨f, hf, rfl⟩⟩

theorem answers_respond (t : State) (ht : t.responses = s.responses) (x : Half) :
    s.Answers (t.respond (.doneWith x)) x :=
  ⟨_, by rw [respond_responses, ht], .inr rfl⟩

theorem compare_answers (x y : AddrOperand) :
    s.Answers (s.compare x y) (if s.addrVal x = s.addrVal y then 1 else 0) := by
  by_cases h : s.operandFits x = true ∧ s.operandFits y = true
  · rw [compare_inside s h.1 h.2]
    exact answers_respond s _ rfl _
  · rw [compare_outside s h]
    exact answers_raise s (by decide) _

theorem copy_answers (d : Nat) (x : AddrOperand) : s.Answers (s.copy d x) 0 := by
  by_cases h : s.bounds.fits d 4 ∧ s.operandFits x = true
  · rw [copy_inside s h.1 h.2]
    exact answers_respond s _ rfl _
  · rw [copy_outside s h]
    exact answers_raise s (by decide) _

theorem exec_csumip_answers (v : Nat) (old new : Word) : ∃ t, exec (.csumip v old new) s = .next t ∧ s.Answers t 0 := by
  by_cases h : s.bounds.fits v 20
  · exact ⟨_, exec_csumip_inside s old new h, answers_respond s _ rfl _⟩
  · exact ⟨_, exec_csumip_outside s old new h, answers_raise s (by decide) _⟩

theorem exec_ttldec_answers (v : Nat) : ∃ t, exec (.ttldec v) s = .next t ∧ s.Answers t 0 := by
  by_cases h : s.bounds.fits v 20
  · by_cases ht : s.load8 (v + 8) = 0
    · exact ⟨_, exec_ttldec_expired s h ht, answers_raise s (by decide) _⟩
    · exact ⟨_, exec_ttldec_alive s h ht, answers_respond s _ rfl _⟩
  · exact ⟨_, exec_ttldec_outside s h, answers_raise s (by decide) _⟩

theorem response_unique {s t : State} {r r' : Response} (h : t.responses = s.responses ++ [r])
    (h' : t.responses = s.responses ++ [r']) : r = r' :=
  List.singleton_inj.mp (List.append_cancel_left (h.symm.trans h'))

/-- R78's table for one response `r` of command `i` in state `s`, but for `RES0` on `DONE`, of which `Res0` is said. -/
def ResultFields (i : Instr) (s : State) (r : Response) (Res0 : Prop) : Prop :=
  (r.status ≠ .done → r.outcome = .ok ∧ r.res0 = 0 ∧ r.res1 = 0 ∧ r.res2 = 0 ∧ r.res3 = 0) ∧
  (r.status = .done →
    (i = .parse → r.outcome = .ok → r.res0 = 14 ∧ r.res1 = 34 ∧ r.res2 = 26 ∧ r.res3 = 30) ∧
    (i = .parse → r.outcome ≠ .ok → r.res0 = Config.any16 s.draws ∧ r.res1 = Config.any16 (s.draws + 1) ∧
      r.res2 = Config.any16 (s.draws + 2) ∧ r.res3 = Config.any16 (s.draws + 3)) ∧
    (i ≠ .parse → r.outcome = .ok ∧ r.res1 = 0 ∧ r.res2 = 0 ∧ r.res3 = 0) ∧ Res0)

theorem resultFields_parsedOk : ResultFields .parse s .parsedOk True :=
  ⟨fun hne => absurd rfl hne, fun _ => ⟨fun _ _ => ⟨rfl, rfl, rfl, rfl⟩, fun _ hne => absurd rfl hne,
    fun hne => absurd rfl hne, trivial⟩⟩

theorem resultFields_rejected {o : ParseOutcome} (ho : o ≠ .ok) : ResultFields .parse s (.rejected o s.draws) True :=
  ⟨fun hne => absurd rfl hne, fun _ => ⟨fun _ hok => absurd hok ho, fun _ _ => ⟨rfl, rfl, rfl, rfl⟩,
    fun hne => absurd rfl hne, trivial⟩⟩

variable {s} in
theorem resultFields_of_answers {i : Instr} {t u : State} {r : Response} {x : Half} (hi : i ≠ .parse)
    (h : exec i s = .next t) (hr : t.responses = s.responses ++ [r]) (hu : exec i s = .next u) (hx : s.Answers u x) :
    ResultFields i s r (r.res0 = x) := by
  obtain rfl := Host.Outcome.next.inj (h.symm.trans hu)
  obtain ⟨r', hr', hanswer⟩ := hx
  obtain rfl := response_unique hr hr'
  rcases hanswer with ⟨f, hf, rfl⟩ | rfl
  · exact ⟨fun _ => ⟨rfl, rfl, rfl, rfl, rfl⟩, fun hdone => absurd hdone hf⟩
  · exact ⟨fun hne => absurd rfl hne,
      fun _ => ⟨fun hparse => absurd hparse hi, fun hparse => absurd hparse hi, fun _ => ⟨rfl, rfl, rfl, rfl⟩, rfl⟩⟩

/-- Settles O38: `PARSE` by its two answers, every other form by the lemma that says with what value it answers. -/
theorem resultFieldsByCommand : Obligations.ResultFieldsByCommand := by
  intro i s t r h hr
  cases i with
  | parse =>
    by_cases hok : s.classify = .ok
    · obtain rfl := Host.Outcome.next.inj ((exec_parse_ok s hok).symm.trans h)
      obtain rfl := response_unique (s := s) rfl hr
      exact resultFields_parsedOk s
    · obtain rfl := Host.Outcome.next.inj ((exec_parse_rejected s hok).symm.trans h)
      obtain rfl := response_unique (s := s) rfl hr
      exact resultFields_rejected s hok
  | csumip v old new =>
    obtain ⟨u, hu, hx⟩ := exec_csumip_answers s v old new
    exact resultFields_of_answers (by simp) h hr hu hx
  | csumudp c old new => exact resultFields_of_answers (by simp) h hr rfl (answers_respond s s rfl _)
  | ttldec v =>
    obtain ⟨u, hu, hx⟩ := exec_ttldec_answers s v
    exact resultFields_of_answers (by simp) h hr hu hx
  | addreqImmImm a b => exact resultFields_of_answers (by simp) h hr rfl (compare_answers s (.imm a) (.imm b))
  | addreqViewImm a b => exact resultFields_of_answers (by simp) h hr rfl (compare_answers s (.view a) (.imm b))
  | addreqImmView a b => exact resultFields_of_answers (by simp) h hr rfl (compare_answers s (.imm a) (.view b))
  | addreqViewView a b => exact resultFields_of_answers (by simp) h hr rfl (compare_answers s (.view a) (.view b))
  | addrcpyImm d src => exact resultFields_of_answers (by simp) h hr rfl (copy_answers s d (.imm src))
  | addrcpyView d src => exact resultFields_of_answers (by simp) h hr rfl (copy_answers s d (.view src))

end Sys2Proof.Machine
end

