-- ==== Sys2Proof/Proofs/HeaderParser.lean ====
section
/-! `PARSE` (R92 to R106). The model tests the frame in a fixed priority; the decision table gives each outcome its own
row. The two are one: the row of the outcome the priority leads to always holds, and a row that holds leads to its outcome.
What `PARSE` answers then follows from the outcome. -/

namespace Sys2Proof.Machine

/-- The length of the frame, `END - START` (R106). -/
def State.frameLength (s : State) : Nat := s.bounds.stop - s.bounds.start

/-- The row of the decision table that names the outcome (R106). -/
def ParseRow (s : State) : ParseOutcome → Prop
  | .invalidIPSize =>
    s.frameLength < 14 ∨ (14 ≤ s.frameLength ∧ s.frameLength ≤ 33 ∧ s.load16 12 = 0x0800)
  | .notIPv4 => 14 ≤ s.frameLength ∧ s.load16 12 ≠ 0x0800
  | .tooSmallIPHeader => 34 ≤ s.frameLength ∧ s.load16 12 = 0x0800 ∧ (s.load8 14).toNat % 16 ≤ 4
  | .notUDP => 34 ≤ s.frameLength ∧ s.load16 12 = 0x0800 ∧ 5 ≤ (s.load8 14).toNat % 16 ∧ s.load8 23 ≠ 17
  | .tooBigIPHeader => 34 ≤ s.frameLength ∧ s.load16 12 = 0x0800 ∧ 6 ≤ (s.load8 14).toNat % 16 ∧ s.load8 23 = 17
  | .fragmentedIPPacket => 34 ≤ s.frameLength ∧ s.load16 12 = 0x0800 ∧ (s.load8 14).toNat % 16 = 5 ∧
    s.load8 23 = 17 ∧ s.load16 20 &&& 0x3FFF ≠ 0
  | .lifetimeExpired => 34 ≤ s.frameLength ∧ s.load16 12 = 0x0800 ∧ (s.load8 14).toNat % 16 = 5 ∧
    s.load8 23 = 17 ∧ s.load16 20 &&& 0x3FFF = 0 ∧ (s.load8 22).toNat = 0
  | .ok => 34 ≤ s.frameLength ∧ s.load16 12 = 0x0800 ∧ (s.load8 14).toNat % 16 = 5 ∧
    s.load8 23 = 17 ∧ s.load16 20 &&& 0x3FFF = 0 ∧ 1 ≤ (s.load8 22).toNat

variable (s : State)

/-! ### The model's tests in the terms of the table -/

/-- A range of at least one byte fits when the frame is long enough for it. -/
theorem fits_iff_le_frameLength {off n : Nat} (hpos : 0 < off + n) :
    s.bounds.fits off n ↔ off + n ≤ s.frameLength := by
  unfold Bounds.fits State.frameLength
  omega

theorem ihl_eq : s.ihl = (s.load8 14).toNat % 16 := by
  simp [State.ihl]

/-- The fragment-offset mask and the more-fragments mask make up `0x3FFF` (R100). -/
theorem fragmented_iff : s.fragmented = true ↔ s.load16 20 &&& 0x3FFF ≠ 0 := by
  have hmask : (0x3FFF : Half) = fragOffMask ||| mfMask := rfl
  rw [hmask, BitVec.and_or_distrib_left]
  simp only [State.fragmented, Bool.or_eq_true, bne_iff_ne, ne_eq, BitVec.ofNat_eq_ofNat, BitVec.or_eq_zero_iff,
    not_and_or]

theorem ttl_eq_zero_iff : s.load8 22 = 0 ↔ ¬ 1 ≤ (s.load8 22).toNat := by
  rw [Nat.not_le, Nat.lt_one_iff]
  exact BitVec.toNat_inj.symm

/-- The fixed priority of the checks (R92 to R101), in the terms of the decision table: a frame that passes them all is `Ok`, and the first
one it fails gives the outcome. -/
theorem classify_eq : s.classify =
    if 14 ≤ s.frameLength then
      if s.load16 12 = 0x0800 then
        if 34 ≤ s.frameLength then
          if 5 ≤ (s.load8 14).toNat % 16 then
            if s.load8 23 = 17 then
              if (s.load8 14).toNat % 16 = 5 then
                if s.load16 20 &&& 0x3FFF = 0 then
                  if 1 ≤ (s.load8 22).toNat then .ok
                  else .lifetimeExpired
                else .fragmentedIPPacket
              else .tooBigIPHeader
            else .notUDP
          else .tooSmallIPHeader
        else .invalidIPSize
      else .notIPv4
    else .invalidIPSize := by
  have heth : s.bounds.fits 0 ethHlen ↔ 14 ≤ s.frameLength := fits_iff_le_frameLength s (by decide)
  have hip : s.bounds.fits fIp ipHlen ↔ 34 ≤ s.frameLength := fits_iff_le_frameLength s (by decide)
  simp only [State.classify, heth, hip, ihl_eq, ← Nat.not_le, fragmented_iff, ttl_eq_zero_iff, ne_eq, ite_not]

/-! ### The priority and the table agree -/

theorem parseRow_classify : ParseRow s s.classify := by
  rw [classify_eq]
  split_ifs with heth hetype hip hihl hproto hihl5 hfrag httl
  · exact ⟨hip, hetype, hihl5, hproto, hfrag, httl⟩
  · exact ⟨hip, hetype, hihl5, hproto, hfrag, by omega⟩
  · exact ⟨hip, hetype, hihl5, hproto, hfrag⟩
  · exact ⟨hip, hetype, by omega, hproto⟩
  · exact ⟨hip, hetype, hihl, hproto⟩
  · exact ⟨hip, hetype, by omega⟩
  · exact .inr ⟨heth, by omega, hetype⟩
  · exact ⟨heth, hetype⟩
  · exact .inl (by omega)

theorem classify_of_parseRow {o : ParseOutcome} (h : ParseRow s o) : s.classify = o := by
  rw [classify_eq]
  cases o with
  | invalidIPSize =>
    rcases h with hshort | ⟨heth, hnoheader, hetype⟩
    · rw [if_neg (by omega)]
    · rw [if_pos heth, if_pos hetype, if_neg (by omega)]
  | notIPv4 =>
    obtain ⟨heth, hetype⟩ := h
    rw [if_pos heth, if_neg hetype]
  | tooSmallIPHeader =>
    obtain ⟨hip, hetype, hihl⟩ := h
    rw [if_pos (by omega), if_pos hetype, if_pos hip, if_neg (by omega)]
  | notUDP =>
    obtain ⟨hip, hetype, hihl, hproto⟩ := h
    rw [if_pos (by omega), if_pos hetype, if_pos hip, if_pos hihl, if_neg hproto]
  | tooBigIPHeader =>
    obtain ⟨hip, hetype, hihl, hproto⟩ := h
    rw [if_pos (by omega), if_pos hetype, if_pos hip, if_pos (by omega), if_pos hproto, if_neg (by omega)]
  | fragmentedIPPacket =>
    obtain ⟨hip, hetype, hihl, hproto, hfrag⟩ := h
    rw [if_pos (by omega), if_pos hetype, if_pos hip, if_pos hihl.ge, if_pos hproto, if_pos hihl, if_neg hfrag]
  | lifetimeExpired =>
    obtain ⟨hip, hetype, hihl, hproto, hfrag, httl⟩ := h
    rw [if_pos (by omega), if_pos hetype, if_pos hip, if_pos hihl.ge, if_pos hproto, if_pos hihl, if_pos hfrag,
      if_neg (by omega)]
  | ok =>
    obtain ⟨hip, hetype, hihl, hproto, hfrag, httl⟩ := h
    rw [if_pos (by omega), if_pos hetype, if_pos hip, if_pos hihl.ge, if_pos hproto, if_pos hihl, if_pos hfrag,
      if_pos httl]

/-- The rows are exhaustive and exclude each other: a frame has the outcome whose row it is on (R106). -/
theorem classify_eq_iff_parseRow (o : ParseOutcome) : s.classify = o ↔ ParseRow s o :=
  ⟨fun h => h ▸ parseRow_classify s, classify_of_parseRow s⟩

/-- R102's list is the table's row for `Ok`. -/
theorem classify_eq_ok_iff_parseAccepts : s.classify = .ok ↔ ParseAccepts s := classify_eq_iff_parseRow s .ok

/-! ### What `PARSE` answers -/

/-- The response `PARSE` gives, but for the free values of a parse that is not `Ok`. -/
structure Response.OfParse (r : Response) (s : State) : Prop where
  status : r.status = .done
  outcome : r.outcome = s.classify
  views : s.classify = .ok → r = .parsedOk

/-- `PARSE` writes nothing and gives one response, whose outcome is the frame's. -/
theorem exec_parse_answers : ∃ r k, exec .parse s = .next (s.after s.frame r k) ∧ r.OfParse s := by
  by_cases hok : s.classify = .ok
  · exact ⟨.parsedOk, 0, exec_parse_ok s hok, rfl, hok.symm, fun _ => rfl⟩
  · exact ⟨.rejected s.classify s.draws, 4, exec_parse_rejected s hok, rfl, rfl, fun h => absurd h hok⟩

variable {s} in
theorem frame_and_response_of_exec_parse {t : State} {r : Response} (h : exec .parse s = .next t)
    (hr : t.responses = s.responses ++ [r]) : t.frame = s.frame ∧ r.OfParse s := by
  obtain ⟨r', k, hexec, hparse⟩ := exec_parse_answers s
  obtain rfl := Host.Outcome.next.inj (hexec.symm.trans h)
  obtain rfl := response_unique (s := s) rfl hr
  exact ⟨rfl, hparse⟩

/-- Settles O9: the outcome of the response is the frame's, and each outcome has its row. -/
theorem parseFollowsDecisionTable : Obligations.ParseFollowsDecisionTable := by
  intro s
  obtain ⟨r, k, hexec, hparse⟩ := exec_parse_answers s
  have row (o : ParseOutcome) : r.outcome = o ↔ ParseRow s o := hparse.outcome ▸ classify_eq_iff_parseRow s o
  exact ⟨_, r, hexec, rfl, rfl, hparse.status, row .invalidIPSize, row .notIPv4, row .tooSmallIPHeader, row .notUDP,
    row .tooBigIPHeader, row .fragmentedIPPacket, row .lifetimeExpired, row .ok⟩

/-- Settles O10: R102's list is the row of `Ok`, and each view ends within the 34 bytes the list demands. -/
theorem parseOkReturnsViews : Obligations.ParseOkReturnsViews := by
  refine ⟨fun s haccepts => exec_parse_ok s ((classify_eq_ok_iff_parseAccepts s).mpr haccepts), ?_⟩
  intro s t r h hr hok
  obtain ⟨-, hparse⟩ := frame_and_response_of_exec_parse h hr
  have hclassify : s.classify = .ok := hparse.outcome.symm.trans hok
  have haccepts := (classify_eq_ok_iff_parseAccepts s).mp hclassify
  have hip : s.bounds.fits 14 20 := (fits_iff_le_frameLength s (by decide)).mpr haccepts.1
  exact ⟨haccepts, hparse.views hclassify, hip, Bounds.fits_mono hip (by decide), Bounds.fits_mono hip (by decide)⟩

/-- Settles O11: a frame R102's list does not accept has another outcome, which draws the four values. -/
theorem rejectedParseCarriesFreeValues : Obligations.RejectedParseCarriesFreeValues := by
  intro s hrejected
  have hne : s.classify ≠ .ok := mt (classify_eq_ok_iff_parseAccepts s).mp hrejected
  exact ⟨s.classify, hne, exec_parse_rejected s hne⟩

/-! ### The bytes `PARSE` depends on -/

/-- The offsets of the bytes a classification depends on (R104). -/
def parseOffsets : List Nat := [12, 13, 14, 20, 21, 22, 23]

variable {s} in
theorem classify_congr {s' : State} (hbounds : s.bounds = s'.bounds)
    (hbytes : ∀ k ∈ parseOffsets, s.frame.read (s.bounds.start + k) = s'.frame.read (s.bounds.start + k)) :
    s.classify = s'.classify := by
  have hload8 {k : Nat} (hk : k ∈ parseOffsets) : s.load8 k = s'.load8 k := by
    rw [load8_eq, load8_eq, ← hbounds, hbytes k hk]
  have hload16 {k : Nat} (hk : k ∈ parseOffsets) (hk' : k + 1 ∈ parseOffsets) : s.load16 k = s'.load16 k := by
    rw [load16_eq, load16_eq, ← hbounds]
    exact read16_congr (hbytes k hk) (hbytes (k + 1) hk')
  have hlen : s.frameLength = s'.frameLength := by rw [State.frameLength, State.frameLength, hbounds]
  have hetype : s.load16 12 = s'.load16 12 := hload16 (by decide) (by decide)
  have hihl : s.load8 14 = s'.load8 14 := hload8 (by decide)
  have hfrag : s.load16 20 = s'.load16 20 := hload16 (by decide) (by decide)
  have httl : s.load8 22 = s'.load8 22 := hload8 (by decide)
  have hproto : s.load8 23 = s'.load8 23 := hload8 (by decide)
  rw [classify_eq, classify_eq, hlen, hetype, hihl, hfrag, httl, hproto]

/-- Settles O12: the two frames have one classification, and it gives the status, the outcome and the views. -/
theorem parseDependsOnSevenBytes : Obligations.ParseDependsOnSevenBytes := by
  intro s s' t t' r r' hbounds hbytes h h' hr hr'
  obtain ⟨hframe, hparse⟩ := frame_and_response_of_exec_parse h hr
  obtain ⟨hframe', hparse'⟩ := frame_and_response_of_exec_parse h' hr'
  have hsame : s.classify = s'.classify := classify_congr hbounds hbytes
  refine ⟨hparse.status.trans hparse'.status.symm, ?_, fun hok => ?_, hframe, hframe'⟩
  · rw [hparse.outcome, hparse'.outcome, hsame]
  · have hclassify : s.classify = .ok := hparse.outcome.symm.trans hok
    rw [hparse.views hclassify, hparse'.views (hsame ▸ hclassify)]

end Sys2Proof.Machine
end

