-- ==== Sys2Proof/Proofs/OnesComplement.lean ====
section
/-! One's-complement arithmetic (R120 to R123): the end-around carry keeps the residue modulo 65535 and never turns a positive number
into zero, so a folded value, and with it the checksum update, is settled by a congruence modulo 65535. -/

namespace Sys2Proof.Machine

/-! ### `fold16` -/

theorem foldStep_of_lt {x : Nat} (h : x < 2 ^ 16) : foldStep x = x := by
  unfold foldStep
  omega

theorem foldStep_lt {x : Nat} (h : 2 ^ 16 ≤ x) : foldStep x < x := by
  unfold foldStep
  omega

/-- `2^16` is congruent to 1 modulo 65535. -/
theorem foldStep_modEq (x : Nat) : foldStep x ≡ x [MOD 65535] := by
  unfold foldStep Nat.ModEq
  omega

theorem foldStep_pos {x : Nat} (h : 0 < x) : 0 < foldStep x := by
  unfold foldStep
  omega

/-- Fuel beyond the number itself changes nothing: each carry lowers the number. -/
theorem foldUpTo_eq_of_le {n m x : Nat} (hn : x ≤ n) (hm : x ≤ m) : foldUpTo n x = foldUpTo m x := by
  induction n generalizing m x with
  | zero =>
    obtain rfl := Nat.le_zero.mp hn
    cases m <;> rfl
  | succ n ih =>
    cases m with
    | zero =>
      obtain rfl := Nat.le_zero.mp hm
      rfl
    | succ m =>
      rw [foldUpTo, foldUpTo]
      split
      · rfl
      · next hx =>
        have hlt := foldStep_lt (Nat.not_lt.mp hx)
        exact ih (by omega) (by omega)

@[simp] theorem fold16_of_lt {x : Nat} (h : x < 2 ^ 16) : fold16 x = x := by
  cases x with
  | zero => rfl
  | succ k => rw [fold16, foldUpTo, if_pos h]

@[simp] theorem fold16_foldStep (x : Nat) : fold16 (foldStep x) = fold16 x := by
  rcases Nat.lt_or_ge x (2 ^ 16) with h | h
  · rw [foldStep_of_lt h]
  · cases x with
    | zero => omega
    | succ k =>
      have hlt := foldStep_lt h
      rw [fold16, fold16, foldUpTo, if_neg (by omega)]
      exact foldUpTo_eq_of_le le_rfl (by omega)

/-- The induction that follows the iteration of R120: a number without a carry, then one fold step. -/
theorem fold16_induction {P : Nat → Prop} (small : ∀ x, x < 2 ^ 16 → P x)
    (carry : ∀ x, 2 ^ 16 ≤ x → P (foldStep x) → P x) (x : Nat) : P x := by
  induction x using Nat.strong_induction_on with
  | _ x ih =>
    rcases Nat.lt_or_ge x (2 ^ 16) with h | h
    · exact small x h
    · exact carry x h (ih _ (foldStep_lt h))

theorem fold16_lt (x : Nat) : fold16 x < 2 ^ 16 := by
  induction x using fold16_induction with
  | small x h => rwa [fold16_of_lt h]
  | carry x _ ih => rwa [fold16_foldStep] at ih

theorem fold16_modEq (x : Nat) : fold16 x ≡ x [MOD 65535] := by
  induction x using fold16_induction with
  | small x h => rw [fold16_of_lt h]
  | carry x _ ih =>
    rw [fold16_foldStep] at ih
    exact ih.trans (foldStep_modEq x)

theorem fold16_pos {x : Nat} (hx : 0 < x) : 0 < fold16 x := by
  induction x using fold16_induction with
  | small x h => rwa [fold16_of_lt h]
  | carry x _ ih =>
    rw [fold16_foldStep] at ih
    exact ih (foldStep_pos hx)

theorem fold16_eq_zero_iff {x : Nat} : fold16 x = 0 ↔ x = 0 := by
  constructor
  · intro h
    by_contra hx
    exact (fold16_pos (Nat.pos_of_ne_zero hx)).ne' h
  · rintro rfl
    rfl

/-- R121 (d): a positive number folds to the representative of its residue in `1 .. 65535`. -/
theorem fold16_eq_of_pos {x : Nat} (hx : 0 < x) : fold16 x = if x % 65535 = 0 then 65535 else x % 65535 := by
  have hlt := fold16_lt x
  have hpos := fold16_pos hx
  have hmod : fold16 x % 65535 = x % 65535 := fold16_modEq x
  split <;> omega

/-- A fold step that leaves no carry is the last one. -/
theorem fold16_eq_foldStep {x : Nat} (h : foldStep x < 2 ^ 16) : fold16 x = foldStep x := by
  rw [← fold16_foldStep, fold16_of_lt h]

/-- Settles O13: `fold16` is unchanged by a fold step, and it ends without a carry. -/
theorem foldSixteenIteratesTheCarry : Obligations.FoldSixteenIteratesTheCarry := by
  refine ⟨fun x => ?_, fun x => foldStep_lt, fold16_lt⟩
  split
  · next h => exact fold16_of_lt h
  · exact (fold16_foldStep x).symm

/-- R121 (e), the first step: at most four carries of `2^16` in a sum of five 16-bit terms. -/
theorem foldStep_le {x : Nat} (h : x ≤ 5 * 65535) : foldStep x ≤ 0x10003 := by
  unfold foldStep
  omega

/-- R121 (e), the second step where the first left a carry. -/
theorem foldStep_le_of_carry {x : Nat} (hcarry : 2 ^ 16 ≤ x) (h : x ≤ 0x10003) : foldStep x ≤ 0x0003 + 1 := by
  unfold foldStep
  omega

/-- R121 (e): two fold steps reach the fixed point. -/
theorem fold16_eq_two_steps {x : Nat} (h : x ≤ 5 * 65535) : fold16 x = foldStep (foldStep x) := by
  have hfirst := foldStep_le h
  have hsecond : foldStep (foldStep x) < 2 ^ 16 := by
    rcases Nat.lt_or_ge (foldStep x) (2 ^ 16) with hlt | hcarry
    · rwa [foldStep_of_lt hlt]
    · have := foldStep_le_of_carry hcarry hfirst
      omega
  rw [← fold16_foldStep, fold16_eq_foldStep hsecond]

/-- Settles O14: (a) to (e) in R121's order. -/
theorem foldSixteenFacts : Obligations.FoldSixteenFacts :=
  ⟨fun _ => fold16_of_lt, fold16_modEq, rfl, fun x hx => ⟨fold16_pos hx, Nat.le_of_lt_succ (fold16_lt x)⟩,
    fun _ => fold16_eq_of_pos,
    fun _ h => ⟨foldStep_le h, fun hcarry => foldStep_le_of_carry hcarry (foldStep_le h), fold16_eq_two_steps h⟩⟩

/-! ### Addition and complement -/

theorem toNat_ofNat_fold16 (x : Nat) : (BitVec.ofNat 16 (fold16 x)).toNat = fold16 x :=
  (BitVec.toNat_ofNat ..).trans (Nat.mod_eq_of_lt (fold16_lt x))

theorem ocadd16_toNat (a b : Half) : (ocadd16 a b).toNat = fold16 (a.toNat + b.toNat) := toNat_ofNat_fold16 _

theorem toNat_not_half (b : Half) : (~~~b).toNat = 65535 - b.toNat := BitVec.toNat_not

/-- The sum of two 16-bit values carries at most once (R122). -/
theorem fold16_add_halves (a b : Half) : fold16 (a.toNat + b.toNat) = foldStep (a.toNat + b.toNat) := by
  have hsum : foldStep (a.toNat + b.toNat) < 2 ^ 16 := by
    unfold foldStep
    omega
  exact fold16_eq_foldStep hsum

/-- Adding the second representation of zero changes nothing but a zero (R122). -/
theorem ocadd16_ones {a : Half} (ha : a ≠ 0x0000) : ocadd16 a 0xFFFF = a := by
  have hpos : 0 < a.toNat := Nat.pos_of_ne_zero fun h => ha (BitVec.eq_of_toNat_eq h)
  have hones : (0xFFFF : Half).toNat = 65535 := rfl
  apply BitVec.eq_of_toNat_eq
  rw [ocadd16_toNat, fold16_add_halves, hones, foldStep]
  omega

/-- Settles O15: one carry is enough, and each corner of the double zero is one of the values above. -/
theorem onesComplementAddition : Obligations.OnesComplementAddition :=
  ⟨fun a b => ⟨by omega, (ocadd16_toNat a b).trans (fold16_add_halves a b)⟩, toNat_not_half, fun _ => ocadd16_ones,
    rfl⟩

end Sys2Proof.Machine
end

