-- ==== Sys2Proof/Proofs/ChecksumUpdate.lean ====
section
/-! `csum_update` (R123, R131). It counts only by the sum of the two halves of each field value, and its result is settled by a congruence
modulo 65535 and by the one input that gives `0xFFFF`. -/

namespace Sys2Proof.Machine

/-! ### The halves of a value -/

theorem highHalf_toNat (x : Word) : (highHalf x).toNat = x.toNat / 2 ^ 16 := by
  have hlt := x.isLt
  rw [highHalf, BitVec.extractLsb'_toNat, Nat.shiftRight_eq_div_pow]
  omega

theorem lowHalf_toNat (x : Word) : (lowHalf x).toNat = x.toNat % 2 ^ 16 := by
  rw [lowHalf, BitVec.extractLsb'_toNat, Nat.shiftRight_zero]

@[simp] theorem highHalf_append (a b : Half) : highHalf (a ++ b) = a := BitVec.extractLsb'_append_eq_left

@[simp] theorem lowHalf_append (a b : Half) : lowHalf (a ++ b) = b := BitVec.extractLsb'_append_eq_right

/-- What a field value adds to a word sum. -/
def halfSum (x : Word) : Nat := (highHalf x).toNat + (lowHalf x).toNat

theorem halfSum_append_comm (a b : Half) : halfSum (a ++ b) = halfSum (b ++ a) := by
  simp only [halfSum, highHalf_append, lowHalf_append, Nat.add_comm]

theorem halfSum_eq_zero_iff {x : Word} : halfSum x = 0 ↔ x = 0x00000000 := by
  rw [halfSum, highHalf_toNat, lowHalf_toNat, BitVec.toNat_eq]
  have hzero : (0x00000000 : Word).toNat = 0 := rfl
  omega

theorem halfSum_eq_max_iff {x : Word} : halfSum x = 2 * 65535 ↔ x = 0xFFFFFFFF := by
  rw [halfSum, highHalf_toNat, lowHalf_toNat, BitVec.toNat_eq]
  have hmax : (0xFFFFFFFF : Word).toNat = 0xFFFFFFFF := rfl
  have hlt := x.isLt
  omega

theorem halfSum_le (x : Word) : halfSum x ≤ 2 * 65535 := by
  unfold halfSum
  omega

/-! ### The accumulator and the folded result -/

/-- R123's sum of five terms without its complements. -/
theorem csumAcc_add (hc : Half) (old new : Word) :
    csumAcc hc old new + (hc.toNat + halfSum old) = 3 * 65535 + halfSum new := by
  simp only [csumAcc, toNat_not_half, halfSum]
  omega

theorem csumAcc_eq_zero_iff {hc : Half} {old new : Word} :
    csumAcc hc old new = 0 ↔ hc = 0xFFFF ∧ old = 0xFFFFFFFF ∧ new = 0x00000000 := by
  have hadd := csumAcc_add hc old new
  have hold := halfSum_le old
  have hones : (0xFFFF : Half).toNat = 65535 := rfl
  rw [← halfSum_eq_max_iff, ← halfSum_eq_zero_iff, BitVec.toNat_eq]
  omega

/-- The complement of a folded sum, the form of both `csum_update` and `ip_checksum_full` (R123, R124). -/
def foldedComplement (x : Nat) : Half := ~~~(BitVec.ofNat 16 (fold16 x))

theorem csumUpdate_eq (hc : Half) (old new : Word) : csumUpdate hc old new = foldedComplement (csumAcc hc old new) := rfl

theorem ipChecksumFull_eq (m : Memory) (h : Nat) : ipChecksumFull m h = foldedComplement (headerSum m h) := rfl

theorem foldedComplement_toNat (x : Nat) : (foldedComplement x).toNat = 65535 - fold16 x := by
  rw [foldedComplement, toNat_not_half, toNat_ofNat_fold16]

/-- The complement takes a sum to its negative modulo 65535. -/
theorem foldedComplement_add_modEq (x : Nat) : (foldedComplement x).toNat + x ≡ 0 [MOD 65535] := by
  have hlt := fold16_lt x
  calc (foldedComplement x).toNat + x
    _ ≡ (foldedComplement x).toNat + fold16 x [MOD 65535] := (fold16_modEq x).symm.add_left _
    _ = 65535 := by rw [foldedComplement_toNat]; omega
    _ ≡ 0 [MOD 65535] := rfl

/-- Only an empty sum has the complement `0xFFFF`. -/
theorem foldedComplement_eq_ones_iff {x : Nat} : foldedComplement x = 0xFFFF ↔ x = 0 := by
  have hones : (0xFFFF : Half).toNat = 65535 := rfl
  have hlt := fold16_lt x
  rw [BitVec.toNat_eq, foldedComplement_toNat, ← fold16_eq_zero_iff]
  omega

/-- `0xFFFF` set aside, a 16-bit value is settled by its residue modulo 65535. -/
theorem eq_of_modEq_of_ne_ones {a b : Half} (ha : a ≠ 0xFFFF) (hb : b ≠ 0xFFFF) (h : a.toNat ≡ b.toNat [MOD 65535]) :
    a = b := by
  have lt_of_ne_ones {c : Half} (hc : c ≠ 0xFFFF) : c.toNat < 65535 := by
    have hne : c.toNat ≠ 65535 := fun e => hc (BitVec.eq_of_toNat_eq e)
    omega
  exact BitVec.eq_of_toNat_eq (h.eq_of_lt_of_lt (lt_of_ne_ones ha) (lt_of_ne_ones hb))

/-! ### The laws of the update -/

variable {hc : Half} {old new : Word}

theorem csumUpdate_eq_ones_iff :
    csumUpdate hc old new = 0xFFFF ↔ hc = 0xFFFF ∧ old = 0xFFFFFFFF ∧ new = 0x00000000 := by
  rw [csumUpdate_eq, foldedComplement_eq_ones_iff, csumAcc_eq_zero_iff]

theorem csumUpdate_ne_ones (h : hc ≠ 0xFFFF) : csumUpdate hc old new ≠ 0xFFFF :=
  fun hones => h (csumUpdate_eq_ones_iff.mp hones).1

/-- The update moves the checksum by `old` less `new`, modulo 65535. -/
theorem csumUpdate_modEq (hc : Half) (old new : Word) :
    (csumUpdate hc old new).toNat + halfSum new ≡ hc.toNat + halfSum old [MOD 65535] := by
  have hcompl : (csumUpdate hc old new).toNat + csumAcc hc old new ≡ 0 [MOD 65535] := foldedComplement_add_modEq _
  have hadd := csumAcc_add hc old new
  unfold Nat.ModEq at hcompl ⊢
  omega

/-- A value other than `0xFFFF` with the update's residue is the update. -/
theorem csumUpdate_eq_of_modEq {c : Half} (hupdate : csumUpdate hc old new ≠ 0xFFFF) (hne : c ≠ 0xFFFF)
    (h : c.toNat + halfSum new ≡ hc.toNat + halfSum old [MOD 65535]) : csumUpdate hc old new = c :=
  eq_of_modEq_of_ne_ones hupdate hne (((csumUpdate_modEq hc old new).trans h.symm).add_right_cancel' _)

theorem csumUpdate_self (h : hc ≠ 0xFFFF) (x : Word) : csumUpdate hc x x = hc :=
  csumUpdate_eq_of_modEq (csumUpdate_ne_ones h) h rfl

theorem csumUpdate_csumUpdate (h : hc ≠ 0xFFFF) (x y z : Word) :
    csumUpdate (csumUpdate hc x y) y z = csumUpdate hc x z := by
  refine csumUpdate_eq_of_modEq (csumUpdate_ne_ones (csumUpdate_ne_ones h)) (csumUpdate_ne_ones h) ?_
  exact (csumUpdate_modEq hc x z).trans (csumUpdate_modEq hc x y).symm

theorem ones_modEq_zero : (0x0000 : Half).toNat ≡ (0xFFFF : Half).toNat [MOD 65535] := rfl

theorem csumUpdate_ones_self (x : Word) : csumUpdate 0xFFFF x x = 0x0000 := by
  have hne : csumUpdate 0xFFFF x x ≠ 0xFFFF := by
    rw [ne_eq, csumUpdate_eq_ones_iff]
    rintro ⟨-, rfl, hzero⟩
    exact absurd hzero (by decide)
  exact csumUpdate_eq_of_modEq hne (by decide) (ones_modEq_zero.add_right _)

theorem csumUpdate_ones_roundTrip (x y : Word) : csumUpdate (csumUpdate 0xFFFF x y) y x = 0x0000 := by
  have hne : csumUpdate (csumUpdate 0xFFFF x y) y x ≠ 0xFFFF := by
    rw [ne_eq, csumUpdate_eq_ones_iff, csumUpdate_eq_ones_iff]
    rintro ⟨⟨-, rfl, -⟩, -, hzero⟩
    exact absurd hzero (by decide)
  refine csumUpdate_eq_of_modEq hne (by decide) ?_
  exact (ones_modEq_zero.add_right _).trans (csumUpdate_modEq 0xFFFF x y).symm

/-- Settles O17: composition and identity by their residues, the round trip as a composition that returns; at `0xFFFF` both give the
other representation of zero. -/
theorem checksumUpdateRoundTrip : Obligations.ChecksumUpdateRoundTrip :=
  ⟨fun _ x y h => (csumUpdate_csumUpdate h x y x).trans (csumUpdate_self h x), csumUpdate_ones_roundTrip,
    fun _ x h => csumUpdate_self h x, csumUpdate_ones_self, fun _ x y z h => csumUpdate_csumUpdate h x y z⟩

/-- The accumulator depends on the two values through their half sums alone. -/
theorem csumUpdate_congr {old' new' : Word} (hold : halfSum old = halfSum old') (hnew : halfSum new = halfSum new') :
    csumUpdate hc old new = csumUpdate hc old' new' := by
  have h := csumAcc_add hc old new
  have h' := csumAcc_add hc old' new'
  rw [csumUpdate_eq, csumUpdate_eq, show csumAcc hc old new = csumAcc hc old' new' by omega]

/-- Settles O18: the complement is `0xFFFF` only of an empty accumulator, which the order of the halves does not change. -/
theorem checksumUpdateRangeAndHalves : Obligations.ChecksumUpdateRangeAndHalves :=
  ⟨fun _ _ _ => csumUpdate_eq_ones_iff, fun _ a b _ => csumUpdate_congr (halfSum_append_comm a b) rfl,
    fun _ a b _ => csumUpdate_congr rfl (halfSum_append_comm a b)⟩

/-- The accumulator in R123's terms. -/
theorem csumAcc_eq (hc : Half) (old new : Word) : csumAcc hc old new =
    (65535 - hc.toNat) + (65535 - old.toNat / 2 ^ 16) + (65535 - old.toNat % 2 ^ 16) + new.toNat / 2 ^ 16
      + new.toNat % 2 ^ 16 := by
  simp only [csumAcc, toNat_not_half, highHalf_toNat, lowHalf_toNat]

theorem csumAcc_le (hc : Half) (old new : Word) : csumAcc hc old new ≤ 0x4FFFB := by
  have hadd := csumAcc_add hc old new
  have hnew := halfSum_le new
  omega

/-- The complement of a folded sum as a residue modulo 65535: R121 (d), complemented. -/
theorem foldedComplement_toNat_eq (x : Nat) : (foldedComplement x).toNat =
    if x = 0 then 65535 else if x % 65535 = 0 then 0 else 65535 - x % 65535 := by
  rw [foldedComplement_toNat]
  split
  · next hzero => rw [hzero, fold16_of_lt (by decide)]
  · next hne =>
    rw [fold16_eq_of_pos (Nat.pos_of_ne_zero hne)]
    split <;> rfl

/-- Settles O16: the update is the complement of the folded accumulator. -/
theorem checksumUpdateResidue : Obligations.ChecksumUpdateResidue := by
  intro hc old new
  simp only [← csumAcc_eq]
  exact ⟨csumAcc_le hc old new, foldedComplement_toNat_eq (csumAcc hc old new)⟩

end Sys2Proof.Machine
end

