-- ==== Sys2Proof/Proofs/ChecksumUpdater.lean ====
section
/-! `CSUMIP` and `CSUMUDP` (R125 to R132): what each completes with, that `CSUMIP` keeps a correct header checksum correct beside the
copy of a field (R131 (b)), and that the two may be issued in either order (R132). -/

namespace Sys2Proof.Machine

/-- `ADDRCPY` inside its bounds: the source's value over the field, and the answer `DONE`. -/
theorem copy_after (s : State) {d : Nat} {x : AddrOperand} (hd : s.bounds.fits d 4) (hx : s.operandFits x = true) :
    s.copy d x = s.after (s.frame.write32 (s.bounds.start + d) (s.addrVal x)) (.doneWith 0) 0 :=
  copy_inside s hd hx

/-- `CSUMIP` inside its bounds: the updated half over the old one, and the answer `DONE`. -/
theorem eq_after_of_exec_csumip {s t : State} {v : Nat} {old new : Word} (h : exec (.csumip v old new) s = .next t)
    (hfits : s.bounds.fits v 20) : t = s.after (s.frame.write16 (s.bounds.start + v + 10)
      (csumUpdate (s.frame.read16 (s.bounds.start + v + 10)) old new)) (.doneWith 0) 0 :=
  Host.Outcome.next.inj (h.symm.trans (exec_csumip_inside s old new hfits))

theorem eq_after_of_exec_addrcpyImm {s t : State} {d : Nat} {src : Word} (h : exec (.addrcpyImm d src) s = .next t)
    (hfits : s.bounds.fits d 4) : t = s.after (s.frame.write32 (s.bounds.start + d) src) (.doneWith 0) 0 :=
  (Host.Outcome.next.inj h).symm.trans (copy_after s hfits (operandFits_imm s src))

/-- Settles O19: the answer of `CSUMIP` inside the bounds writes the two checksum bytes and no other. -/
theorem csumipUpdatesChecksumInPlace : Obligations.CsumipUpdatesChecksumInPlace :=
  fun _ old new s h =>
    ⟨_, exec_csumip_inside s old new h, read16_write16_same .., fun _ hx => read_write16_other _ _ hx, rfl, rfl, rfl, rfl⟩

/-- Settles O20: `CSUMUDP` has one path, which reads neither the bounds nor the frame. -/
theorem csumudpReturnsUpdatedValue : Obligations.CsumudpReturnsUpdatedValue :=
  fun _ _ _ _ => rfl

/-! ### Two-byte reads beside a write -/

/-- A two-byte write beside a two-byte field does not change it. -/
theorem read16_write16_other (m : Memory) {a x : Nat} (v : Half) (h : x + 2 ≤ a ∨ a + 2 ≤ x) :
    (m.write16 a v).read16 x = m.read16 x :=
  read16_congr (read_write16_other m v (by omega)) (read_write16_other m v (by omega))

/-- A four-byte write beside a two-byte field does not change it. -/
theorem read16_write32_other (m : Memory) {a x : Nat} (v : Word) (h : x + 2 ≤ a ∨ a + 4 ≤ x) :
    (m.write32 a v).read16 x = m.read16 x :=
  read16_congr (read_write32_other m v (by omega)) (read_write32_other m v (by omega))

theorem highHalf_read32 (m : Memory) (a : Nat) : highHalf (m.read32 a) = m.read16 a := by
  apply BitVec.eq_of_toNat_eq
  rw [highHalf_toNat, read32_toNat, read16_toNat]
  omega

theorem lowHalf_read32 (m : Memory) (a : Nat) : lowHalf (m.read32 a) = m.read16 (a + 2) := by
  apply BitVec.eq_of_toNat_eq
  have hlast : m.read (a + 2 + 1) = m.read (a + 3) := rfl
  rw [lowHalf_toNat, read32_toNat, read16_toNat, hlast]
  omega

theorem read16_write32_high (m : Memory) (a : Nat) (v : Word) : (m.write32 a v).read16 a = highHalf v := by
  rw [← highHalf_read32, read32_write32_same]

theorem read16_write32_low (m : Memory) (a : Nat) (v : Word) : (m.write32 a v).read16 (a + 2) = lowHalf v := by
  rw [← lowHalf_read32, read32_write32_same]

/-! ### The word sum of a header -/

/-- The words the four bytes from word `j` on cover. -/
theorem halfSum_read32_header (m : Memory) (h j : Nat) :
    halfSum (m.read32 (h + 2 * j)) = headerWord m h j + headerWord m h (j + 1) := by
  rw [halfSum, highHalf_read32, lowHalf_read32]
  rfl

/-- A field written at word `j` fills two words and leaves the others alone. -/
theorem headerWord_write32 (m : Memory) (h j i : Nat) (x : Word) : headerWord (m.write32 (h + 2 * j) x) h i =
    if i = j then (highHalf x).toNat else if i = j + 1 then (lowHalf x).toNat else headerWord m h i := by
  unfold headerWord
  split_ifs with hhigh hlow
  · rw [hhigh, read16_write32_high]
  · rw [hlow, show h + 2 * (j + 1) = h + 2 * j + 2 from rfl, read16_write32_low]
  · rw [read16_write32_other m x (by omega)]

/-- The words at which a field of two words meets neither the checksum nor the end of the header. -/
def fieldWords : List Nat := [0, 1, 2, 3, 6, 7, 8]

theorem exists_fieldWord : ∀ {k : Nat}, k ∈ [0, 2, 4, 6, 12, 14, 16] → ∃ j ∈ fieldWords, k = 2 * j := by decide

theorem fieldWord_le {j : Nat} (hj : j ∈ fieldWords) : j ≤ 8 := by
  revert j
  decide

theorem fieldWord_misses_checksum {j : Nat} (hj : j ∈ fieldWords) : j + 2 ≤ 5 ∨ 6 ≤ j := by
  revert j
  decide

/-- A field written outside the checksum exchanges its old share of the word sum for its new one. -/
theorem headerSum_write32 (m : Memory) (h : Nat) {j : Nat} (hj : j ∈ fieldWords) (x : Word) :
    headerSum (m.write32 (h + 2 * j) x) h + halfSum (m.read32 (h + 2 * j)) = headerSum m h + halfSum x := by
  rw [halfSum_read32_header]
  simp only [headerSum, headerWord_write32, halfSum]
  simp only [fieldWords, List.mem_cons, List.not_mem_nil, or_false] at hj
  rcases hj with rfl | rfl | rfl | rfl | rfl | rfl | rfl <;>
    simp only [Nat.reduceEqDiff, Nat.reduceAdd, if_true, if_false] <;> omega

/-- The word sum leaves the checksum field out. -/
theorem headerSum_write16_checksum (m : Memory) (h : Nat) (v : Half) : headerSum (m.write16 (h + 10) v) h = headerSum m h := by
  have hword {i : Nat} (hi : i ≠ 5) : headerWord (m.write16 (h + 10) v) h i = headerWord m h i := by
    rw [headerWord, headerWord, read16_write16_other m v (by omega)]
  simp only [headerSum, hword, ne_eq, Nat.reduceEqDiff, not_false_eq_true]

/-- A header whose first byte is not zero has a positive word sum (R124). -/
theorem headerSum_ne_zero {m : Memory} {h : Nat} (hfirst : m.read h ≠ 0) : headerSum m h ≠ 0 := by
  have hbyte : (m.read h).toNat ≠ 0 := fun e => hfirst (BitVec.eq_of_toNat_eq e)
  have hword : headerWord m h 0 = (m.read h).toNat * 256 + (m.read (h + 1)).toNat := read16_toNat m h
  unfold headerSum
  omega

theorem ipChecksumFull_ne_ones {m : Memory} {h : Nat} (hfirst : m.read h ≠ 0) : ipChecksumFull m h ≠ 0xFFFF :=
  fun hones => headerSum_ne_zero hfirst (foldedComplement_eq_ones_iff.mp hones)

theorem ipChecksumFull_add_modEq (m : Memory) (h : Nat) : (ipChecksumFull m h).toNat + headerSum m h ≡ 0 [MOD 65535] :=
  foldedComplement_add_modEq _

/-! ### A field rewritten and its checksum updated -/

/-- R131 (b) as arithmetic: where the word sum exchanges `old` for `new`, the update takes one from-scratch checksum to the other. -/
theorem csumUpdate_ipChecksumFull {m m' : Memory} {h : Nat} {old new : Word} (hfirst : m.read h ≠ 0)
    (hfirst' : m'.read h ≠ 0) (hsum : headerSum m' h + halfSum old = headerSum m h + halfSum new) :
    csumUpdate (ipChecksumFull m h) old new = ipChecksumFull m' h := by
  refine csumUpdate_eq_of_modEq (csumUpdate_ne_ones (ipChecksumFull_ne_ones hfirst)) (ipChecksumFull_ne_ones hfirst') ?_
  have hbefore := ipChecksumFull_add_modEq m h
  have hafter := ipChecksumFull_add_modEq m' h
  unfold Nat.ModEq at hbefore hafter ⊢
  omega

/-- A frame buffer `m'` whose header at `h` still stores the checksum `m` had is made correct by writing the update there. -/
theorem checksumCorrect_of_update {m m' : Memory} {h : Nat} {old new : Word} (hfirst : m.read h ≠ 0)
    (hfirst' : m'.read h ≠ 0) (hcorrect : ChecksumCorrect m h) (hstored : m'.read16 (h + 10) = m.read16 (h + 10))
    (hsum : headerSum m' h + halfSum old = headerSum m h + halfSum new) :
    ChecksumCorrect (m'.write16 (h + 10) (csumUpdate (m'.read16 (h + 10)) old new)) h := by
  have hold : m'.read16 (h + 10) = ipChecksumFull m h := hstored.trans hcorrect
  rw [ChecksumCorrect, read16_write16_same, ipChecksumFull_eq, headerSum_write16_checksum, ← ipChecksumFull_eq, hold]
  exact csumUpdate_ipChecksumFull hfirst hfirst' hsum

/-- R131 (b) through the two commands, whatever the source of the copy. -/
theorem checksumCorrect_after_copy_csumip {s u : State} {v k : Nat} {x : AddrOperand}
    (hfits : s.bounds.fits v 20) (hx : s.operandFits x = true) (hk : k ∈ [0, 2, 4, 6, 12, 14, 16])
    (hfirst : s.frame.read (s.bounds.start + v) ≠ 0) (hcorrect : ChecksumCorrect s.frame (s.bounds.start + v))
    (hfirst' : (s.copy (v + k) x).frame.read (s.bounds.start + v) ≠ 0)
    (hcsum : exec (.csumip v (s.frame.read32 (s.bounds.start + v + k)) (s.addrVal x))
      { s.copy (v + k) x with bounds := s.bounds } = .next u) :
    ChecksumCorrect u.frame (s.bounds.start + v) := by
  obtain ⟨j, hj, rfl⟩ := exists_fieldWord hk
  have hfield : s.bounds.fits (v + 2 * j) 4 := Bounds.fits_mono hfits (by have hle := fieldWord_le hj; omega)
  rw [copy_after s hfield hx, after_frame, ← Nat.add_assoc] at hfirst'
  rw [copy_after s hfield hx, ← Nat.add_assoc] at hcsum
  obtain rfl := eq_after_of_exec_csumip hcsum hfits
  have hmiss := fieldWord_misses_checksum hj
  have hstored : (s.frame.write32 (s.bounds.start + v + 2 * j) (s.addrVal x)).read16 (s.bounds.start + v + 10) =
      s.frame.read16 (s.bounds.start + v + 10) := read16_write32_other _ _ (by omega)
  exact checksumCorrect_of_update hfirst hfirst' hcorrect hstored (headerSum_write32 _ _ hj _)

/-- Settles O21: a value as the source of the copy. -/
theorem copyThenCsumipKeepsHeaderChecksum : Obligations.CopyThenCsumipKeepsHeaderChecksum := by
  intro s t u v k new hfits hk hfirst hcorrect hcopy hfirst' hcsum
  obtain rfl : s.copy (v + k) (.imm new) = t := Host.Outcome.next.inj hcopy
  exact checksumCorrect_after_copy_csumip hfits (operandFits_imm s new) hk hfirst hcorrect hfirst' hcsum

/-- Settles O54: a view as the source of the copy, read whole before the field is written. -/
theorem copyViewThenCsumipKeepsHeaderChecksum : Obligations.CopyViewThenCsumipKeepsHeaderChecksum := by
  intro s t u v k src hfits hsrc hk hfirst hcorrect hcopy hfirst' hcsum
  obtain rfl : s.copy (v + k) (.view src) = t := Host.Outcome.next.inj hcopy
  exact checksumCorrect_after_copy_csumip hfits ((operandFits_view s src).mpr hsrc) hk hfirst hcorrect hfirst' hcsum

/-! ### Either order -/

/-- A two-byte write gives a byte that depends on no byte but the one it replaces. -/
theorem read_write16_congr {m m' : Memory} {a y : Nat} (v : Half) (h : m.read y = m'.read y) :
    (m.write16 a v).read y = (m'.write16 a v).read y := by
  simp only [Memory.write16, read_write, h]

/-- A four-byte write gives a byte that depends on no byte but the one it replaces. -/
theorem read_write32_congr {m m' : Memory} {a y : Nat} (v : Word) (h : m.read y = m'.read y) :
    (m.write32 a v).read y = (m'.write32 a v).read y := by
  simp only [Memory.write32, read_write, h]

/-- Writes that do not meet commute: each byte is left alone by one of the two. -/
theorem sameBytes_write16_write32_comm (m : Memory) {a d : Nat} (c : Half) (x : Word) (h : d + 4 ≤ a ∨ a + 2 ≤ d) :
    SameBytes ((m.write16 a c).write32 d x) ((m.write32 d x).write16 a c) := by
  intro y
  by_cases hy : y < d ∨ d + 4 ≤ y
  · rw [read_write32_other _ _ hy]
    exact read_write16_congr c (read_write32_other m x hy).symm
  · have hy' : y < a ∨ a + 2 ≤ y := by omega
    rw [read_write16_other _ _ hy']
    exact read_write32_congr x (read_write16_other m c hy')

/-- Settles O33: the copy leaves the checksum that is updated alone, and the two writes do not meet. -/
theorem csumipCommutesWithCopy : Obligations.CsumipCommutesWithCopy := by
  intro s t t' u u' v d old new src hv hd hmiss hcsum hcopy hcopy' hcsum'
  obtain rfl := eq_after_of_exec_csumip hcsum hv
  obtain rfl := eq_after_of_exec_addrcpyImm hcopy hd
  obtain rfl := eq_after_of_exec_addrcpyImm hcopy' hd
  obtain rfl := eq_after_of_exec_csumip hcsum' hv
  have hstored : (s.frame.write32 (s.bounds.start + d) src).read16 (s.bounds.start + v + 10) =
      s.frame.read16 (s.bounds.start + v + 10) := read16_write32_other _ _ (by omega)
  refine ⟨?_, rfl⟩
  simp only [after_frame, hstored]
  exact sameBytes_write16_write32_comm _ _ _ (by omega)

end Sys2Proof.Machine
end

