-- ==== Sys2Proof/Proofs/LifetimeManager.lean ====
section
/-! `TTLDEC` (R140 to R148). Its shortcut is one's-complement addition of `0x0100`; `csum_update` on a field whose halves lose `0x0100` is
the same but at `0xFEFF` (R148), and the header's word sum loses `0x0100` with the time-to-live, so that recomputation is such an update
(R147). -/

namespace Sys2Proof.Machine

/-! ### The shortcut -/

/-- The 17-bit sum with its carry added back, in numbers (R142). -/
theorem ttlCsum_toNat (hc : Half) : (ttlCsum hc).toNat = foldStep (hc.toNat + 0x0100) := by
  have hwide : (hc.setWidth 17 + 0x0100).toNat = hc.toNat + 0x0100 := by
    bv_omega
  simp only [ttlCsum, foldStep, BitVec.toNat_add, BitVec.toNat_setWidth, BitVec.extractLsb'_toNat, hwide,
    Nat.shiftRight_eq_div_pow]
  rcases Nat.lt_or_ge (hc.toNat + 0x0100) (2 ^ 16) with hnone | hcarry <;> omega

theorem ttlCsum_eq_ocadd16 (hc : Half) : ttlCsum hc = ocadd16 hc 0x0100 := by
  apply BitVec.eq_of_toNat_eq
  rw [ttlCsum_toNat, ocadd16_toNat, fold16_add_halves]
  rfl

/-- Settles O25: the shortcut is one fold step, and the sum of two 16-bit values needs no second. -/
theorem ttlShortcutIsOnesComplement : Obligations.TtlShortcutIsOnesComplement :=
  fun hc => ⟨ttlCsum_eq_ocadd16 hc, ttlCsum_toNat hc⟩

/-- The shortcut raises the checksum by `0x0100`, modulo 65535. -/
theorem ttlCsum_modEq (hc : Half) : (ttlCsum hc).toNat ≡ hc.toNat + 0x0100 [MOD 65535] := by
  rw [ttlCsum_toNat]
  exact foldStep_modEq _

theorem ttlCsum_ne_self (hc : Half) : ttlCsum hc ≠ hc := by
  intro hself
  have hmod := ttlCsum_modEq hc
  rw [hself, Nat.ModEq] at hmod
  omega

theorem ttlCsum_eq_ones_iff {hc : Half} : ttlCsum hc = 0xFFFF ↔ hc = 0xFEFF := by
  have hones : (0xFFFF : Half).toNat = 65535 := rfl
  have hbelow : (0xFEFF : Half).toNat = 65279 := rfl
  rw [BitVec.toNat_eq, BitVec.toNat_eq, ttlCsum_toNat, foldStep]
  omega

/-! ### The shortcut and the update -/

section LoweredField

variable {old new : Word} (hlowered : halfSum new + 0x0100 = halfSum old) (hc : Half)
include hlowered

theorem csumUpdate_lowered_ne_ones : csumUpdate hc old new ≠ 0xFFFF := by
  rw [ne_eq, csumUpdate_eq_ones_iff, ← halfSum_eq_max_iff, ← halfSum_eq_zero_iff]
  omega

theorem csumUpdate_lowered_modEq : (csumUpdate hc old new).toNat ≡ (ttlCsum hc).toNat [MOD 65535] := by
  have hupdate := csumUpdate_modEq hc old new
  have hshortcut := ttlCsum_modEq hc
  unfold Nat.ModEq at *
  omega

/-- R148: where the halves of a field lose `0x0100`, the update is the shortcut, but for the representation of zero at `0xFEFF`. -/
theorem csumUpdate_lowered : csumUpdate hc old new = if hc = 0xFEFF then 0x0000 else ttlCsum hc := by
  have hne := csumUpdate_lowered_ne_ones hlowered hc
  have hmod := csumUpdate_lowered_modEq hlowered hc
  split
  · next hzero =>
    rw [ttlCsum_eq_ones_iff.mpr hzero] at hmod
    exact eq_of_modEq_of_ne_ones hne (by decide) (hmod.trans ones_modEq_zero.symm)
  · next hother => exact eq_of_modEq_of_ne_ones hne (ttlCsum_eq_ones_iff.not.mpr hother) hmod

end LoweredField

theorem halfSum_append_lowered (x : Half) {w : Half} (hw : 0x0100 ≤ w.toNat) :
    halfSum (x ++ (w - 0x0100)) + 0x0100 = halfSum (x ++ w) := by
  have hsub : (w - 0x0100).toNat = w.toNat - 0x0100 := BitVec.toNat_sub_of_le hw
  rw [halfSum, halfSum, highHalf_append, lowHalf_append, highHalf_append, lowHalf_append, hsub]
  omega

/-- Settles O27: the word `w_4` lowered by `0x0100` lowers the half sum of the field by as much. -/
theorem ttlShortcutVersusUpdate : Obligations.TtlShortcutVersusUpdate := by
  intro hc x w hw
  rw [csumUpdate_lowered (halfSum_append_lowered x hw)]
  exact ⟨fun hne => if_neg hne, fun heq => ⟨if_pos heq, ttlCsum_eq_ones_iff.mpr heq⟩⟩

/-! ### The command -/

/-- A byte that is not zero is lowered without a borrow. -/
theorem toNat_pred_add_one {b : Byte} (h : b ≠ 0) : (b - 1).toNat + 1 = b.toNat := by
  have hpos : b.toNat ≠ 0 := fun e => h (BitVec.eq_of_toNat_eq e)
  have hsub : (b - 1).toNat = b.toNat - 1 := BitVec.toNat_sub_of_le (Nat.one_le_iff_ne_zero.mpr hpos)
  omega

/-- Settles O22: the answer of `TTLDEC` on a header that is alive, its three bytes in numbers. -/
theorem ttldecDecrementsWithChecksum : Obligations.TtldecDecrementsWithChecksum := by
  intro v s hfits halive
  refine ⟨_, exec_ttldec_alive s hfits halive, ?_, ?_, fun x => decrementTtl_other s v, rfl, rfl, rfl, rfl⟩
  · rw [respond_frame, decrementTtl_ttl, ← toNat_pred_add_one halive, Nat.add_sub_cancel]
  · rw [respond_frame, decrementTtl_csum]
    exact ttlCsum_toNat _

/-- Settles O23: the answer of `TTLDEC` on an expired header. -/
theorem ttldecRefusesExpiredHeader : Obligations.TtldecRefusesExpiredHeader :=
  fun _ s hfits hexpired => exec_ttldec_expired s hfits hexpired

/-- Settles O24: each path of `TTLDEC` is of one of the two kinds; where both effects happen, neither leaves its field as it was. -/
theorem ttldecBothEffectsOrNeither : Obligations.TtldecBothEffectsOrNeither := by
  intro v s t r hexec hr
  have hfault {f : Status} (hf : f ≠ .done) (hraise : exec (.ttldec v) s = .next (s.raise f)) :
      r.status ≠ .done ∧ t.frame = s.frame := by
    obtain rfl := Host.Outcome.next.inj (hraise.symm.trans hexec)
    obtain rfl := response_unique hr (raise_responses s f)
    exact ⟨hf, rfl⟩
  by_cases hfits : s.bounds.fits v 20
  · by_cases hexpired : s.load8 (v + 8) = 0
    · exact .inr (hfault (by decide) (exec_ttldec_expired s hfits hexpired))
    · obtain rfl := Host.Outcome.next.inj ((exec_ttldec_alive s hfits hexpired).symm.trans hexec)
      obtain rfl := response_unique hr (respond_responses (s.decrementTtl v) (.doneWith 0))
      rw [respond_frame, decrementTtl_ttl, decrementTtl_csum, ← ttlCsum_eq_ocadd16]
      exact .inl ⟨rfl, rfl, rfl, by simp, ttlCsum_ne_self _⟩
  · exact .inr (hfault (by decide) (exec_ttldec_outside s hfits))

/-! ### The header checksum -/

/-- The time-to-live is the upper byte of `w_4` (R145). -/
theorem headerWord_four (m : Memory) (h : Nat) :
    headerWord m h 4 = (m.read (h + 8)).toNat * 256 + (m.read (h + 9)).toNat := read16_toNat m (h + 8)

/-- The word sum falls by `0x0100` with the time-to-live, whatever becomes of the checksum, which it leaves out (R145). -/
theorem headerSum_of_ttl_lowered {m m' : Memory} {h : Nat} (hother : SameBytesButTtlAndChecksum h m m')
    (halive : m.read (h + 8) ≠ 0) (httl : m'.read (h + 8) = m.read (h + 8) - 1) :
    headerSum m' h + 0x0100 = headerSum m h := by
  have hword {i : Nat} (h4 : i ≠ 4) (h5 : i ≠ 5) : headerWord m' h i = headerWord m h i := by
    rw [headerWord, headerWord, read16_congr (hother _ _ _ _) (hother _ _ _ _)] <;> omega
  have hlow : headerWord m' h 4 + 0x0100 = headerWord m h 4 := by
    have hprotocol : m'.read (h + 9) = m.read (h + 9) := hother _ (by omega) (by omega) (by omega)
    rw [headerWord_four, headerWord_four, hprotocol, httl, ← toNat_pred_add_one halive]
    omega
  simp only [headerSum, hword, ne_eq, Nat.reduceEqDiff, not_false_eq_true]
  omega

/-- R147 as arithmetic: where the word sum falls by `0x0100`, recomputation gives the shortcut of the from-scratch checksum, but for the
representation of zero at `0xFEFF`. -/
theorem ipChecksumFull_of_lowered {m m' : Memory} {h : Nat} (hfirst : m.read h ≠ 0) (hfirst' : m'.read h ≠ 0)
    (hsum : headerSum m' h + 0x0100 = headerSum m h) :
    ipChecksumFull m' h = if ipChecksumFull m h = 0xFEFF then 0x0000 else ttlCsum (ipChecksumFull m h) := by
  have hupdate : csumUpdate (ipChecksumFull m h) 0x00000100 0x00000000 = ipChecksumFull m' h :=
    csumUpdate_ipChecksumFull hfirst hfirst' hsum
  rw [← hupdate]
  exact csumUpdate_lowered rfl _

/-- Settles O26: the stored checksum is the shortcut of the from-scratch checksum, and so is the recomputed one but at `0xFEFF`. -/
theorem ttldecKeepsHeaderChecksum : Obligations.TtldecKeepsHeaderChecksum := by
  intro v s t hfits hfirst halive hcorrect hexec
  obtain rfl := Host.Outcome.next.inj ((exec_ttldec_alive s hfits halive).symm.trans hexec)
  have hother : SameBytesButTtlAndChecksum (s.bounds.start + v) s.frame (s.decrementTtl v).frame :=
    fun _ => decrementTtl_other s v
  have hfirst' : (s.decrementTtl v).frame.read (s.bounds.start + v) ≠ 0 := by
    rwa [hother _ (by omega) (by omega) (by omega)]
  have hfull := ipChecksumFull_of_lowered hfirst hfirst'
    (headerSum_of_ttl_lowered hother halive (decrementTtl_ttl s v))
  rw [ChecksumCorrect, respond_frame, decrementTtl_csum, hfull, ← hcorrect]
  exact ⟨fun hne => (if_neg hne).symm, fun heq => ⟨ttlCsum_eq_ones_iff.mpr heq, if_pos heq⟩⟩

end Sys2Proof.Machine
end

