-- ==== Sys2Proof/Proofs/AddressUtility.lean ====
section
/-! `ADDREQ` and `ADDRCPY` (R160 to R169). Both are stated over address operands, so that a value and a view are one case: what is compared
and what is copied are the four bytes of the operand. -/

namespace Sys2Proof.Machine

/-! ### The four bytes of an address -/

/-- Byte `i` of a value, most significant first (R69). -/
def valueByte (x : Word) (i : Nat) : Byte := x.extractLsb' (24 - 8 * i) 8

/-- Byte `i` of an address operand: of a view, the frame byte (R69, R161). -/
def State.operandByte (s : State) : AddrOperand → Nat → Byte
  | .imm x, i => valueByte x i
  | .view v, i => s.frame.read (s.bounds.start + v + i)

/-- A read appends its bytes, so that each of them is found again in the value (R45). -/
theorem valueByte_read32 (m : Memory) (a : Nat) (i : Fin 4) : valueByte (m.read32 a) i = m.read (a + i) := by
  apply BitVec.eq_of_toNat_eq
  have h0 := (m.read a).isLt
  have h1 := (m.read (a + 1)).isLt
  have h2 := (m.read (a + 2)).isLt
  have h3 := (m.read (a + 3)).isLt
  rw [valueByte, BitVec.extractLsb'_toNat, read32_toNat, Nat.shiftRight_eq_div_pow]
  fin_cases i <;> dsimp <;> omega

theorem valueByte_addrVal (s : State) (x : AddrOperand) (i : Fin 4) : valueByte (s.addrVal x) i = s.operandByte x i := by
  cases x with
  | imm x => rfl
  | view v => exact valueByte_read32 s.frame (s.bounds.start + v) i

/-- A value is its four bytes joined. -/
theorem eq_iff_valueByte_eq {x y : Word} : x = y ↔ ∀ i : Fin 4, valueByte x i = valueByte y i := by
  refine ⟨fun h _ => h ▸ rfl, fun h => ?_⟩
  have h0 : x.extractLsb' 24 8 = y.extractLsb' 24 8 := h 0
  have h1 : x.extractLsb' 16 8 = y.extractLsb' 16 8 := h 1
  have h2 : x.extractLsb' 8 8 = y.extractLsb' 8 8 := h 2
  have h3 : x.extractLsb' 0 8 = y.extractLsb' 0 8 := h 3
  rw [← join32 x, ← join32 y, h0, h1, h2, h3]

theorem addrVal_eq_iff (s : State) {x y : AddrOperand} :
    s.addrVal x = s.addrVal y ↔ ∀ i : Fin 4, s.operandByte x i = s.operandByte y i := by
  simp only [eq_iff_valueByte_eq, valueByte_addrVal]

/-- Each byte of a four-byte write, counted from the most significant (R46). -/
theorem read_write32_valueByte (m : Memory) (a : Nat) (x : Word) (i : Fin 4) :
    (m.write32 a x).read (a + i) = valueByte x i := by
  rw [read_write32_byte, valueByte, show 24 - 8 * (i : Nat) = 8 * (3 - i) by omega]

/-- A four-byte write beside a four-byte field does not change it. -/
theorem read32_write32_other (m : Memory) {a x : Nat} (v : Word) (h : x + 4 ≤ a ∨ a + 4 ≤ x) :
    (m.write32 a v).read32 x = m.read32 x :=
  read32_congr fun i hi => read_write32_other m v (by omega)

/-! ### The comparison -/

/-- `ADDREQ` inside its bounds, by the bytes of its operands. -/
theorem compare_bytes (s : State) {x y : AddrOperand} (hx : s.operandFits x = true) (hy : s.operandFits y = true) :
    s.compare x y = s.respond (.doneWith (if ∀ i : Fin 4, s.operandByte x i = s.operandByte y i then 1 else 0)) := by
  rw [compare_inside s hx hy]
  simp only [addrVal_eq_iff]

theorem compare_of_addrVal_eq (s : State) {x y : AddrOperand} (hx : s.operandFits x = true)
    (hy : s.operandFits y = true) (hval : s.addrVal x = s.addrVal y) : s.compare x y = s.respond (.doneWith 1) := by
  rw [compare_inside s hx hy, if_pos hval]

theorem compare_comm (s : State) (x y : AddrOperand) : s.compare x y = s.compare y x := by
  by_cases h : s.operandFits x = true ∧ s.operandFits y = true
  · obtain ⟨hx, hy⟩ := h
    rw [compare_inside s hx hy, compare_inside s hy hx]
    simp only [eq_comm]
  · rw [compare_outside s h, compare_outside s (mt And.symm h)]

/-- Settles O29: each form compares the bytes of its two operands. -/
theorem addreqComparesFourBytes : Obligations.AddreqComparesFourBytes := by
  intro s
  have hview {v : Nat} (h : s.bounds.fits v 4) : s.operandFits (.view v) = true := (operandFits_view s v).mpr h
  exact ⟨fun a b => congrArg _ (compare_bytes s (operandFits_imm s a) (operandFits_imm s b)),
    fun _ b ha => congrArg _ (compare_bytes s (hview ha) (operandFits_imm s b)),
    fun a _ hb => congrArg _ (compare_bytes s (operandFits_imm s a) (hview hb)),
    fun _ _ ha hb => congrArg _ (compare_bytes s (hview ha) (hview hb))⟩

/-- Settles O30: an operand has its own value, and the comparison does not see the order of its operands. -/
theorem addreqReflexiveSymmetric : Obligations.AddreqReflexiveSymmetric := by
  have hself {s : State} {x : AddrOperand} (hx : s.operandFits x = true) :
      (s.compare x x).responses = s.responses ++ [.doneWith 1] := by
    rw [compare_of_addrVal_eq s hx hx rfl, respond_responses]
  exact ⟨fun x s => ⟨_, rfl, hself (operandFits_imm s x)⟩,
    fun v s hv => ⟨_, rfl, hself ((operandFits_view s v).mpr hv)⟩,
    fun x y s => congrArg _ (compare_comm s (.imm x) (.imm y)),
    fun v y s => congrArg _ (compare_comm s (.view v) (.imm y)),
    fun v w s => congrArg _ (compare_comm s (.view v) (.view w))⟩

/-! ### The copy -/

section Copy

variable {s : State} {d : Nat} {x : AddrOperand}

/-- `ADDRCPY` inside its bounds: the destination holds the bytes the source had before the command. -/
theorem copy_bytes (hd : s.bounds.fits d 4) (hx : s.operandFits x = true) (i : Fin 4) :
    (s.copy d x).frame.read (s.bounds.start + d + i) = s.operandByte x i := by
  rw [copy_after s hd hx, after_frame, read_write32_valueByte, valueByte_addrVal]

theorem copy_frame_other (hd : s.bounds.fits d 4) (hx : s.operandFits x = true) :
    SameBytesOutside (s.bounds.start + d) 4 s.frame (s.copy d x).frame := by
  rw [copy_after s hd hx]
  exact fun _ hout => read_write32_other _ _ hout

/-- What `ADDRCPY` answers inside its bounds, beside the frame buffer. -/
theorem copy_rest (hd : s.bounds.fits d 4) (hx : s.operandFits x = true) :
    (s.copy d x).responses = s.responses ++ [.doneWith 0] ∧ (s.copy d x).bounds = Bounds.idle ∧
      (s.copy d x).host = s.host ∧ (s.copy d x).draws = s.draws := by
  rw [copy_after s hd hx]
  exact ⟨rfl, rfl, rfl, rfl⟩

/-- A copy that ends with `DONE` has passed both guards (R167). -/
theorem fits_of_copy_done (hdone : (s.copy d x).responses = s.responses ++ [.doneWith 0]) :
    s.bounds.fits d 4 ∧ s.operandFits x = true := by
  by_contra hout
  rw [copy_outside s hout] at hdone
  exact absurd (response_unique (raise_responses s .errBounds) hdone) (by decide)

end Copy

/-- Settles O31: each form copies the bytes of its source. -/
theorem addrcpyWritesFourBytes : Obligations.AddrcpyWritesFourBytes := by
  intro d s hd
  refine ⟨fun src => ?_, fun src hsrc => ?_⟩
  · have hx := operandFits_imm s src
    exact ⟨_, rfl, copy_bytes hd hx, copy_frame_other hd hx, copy_rest hd hx⟩
  · have hx := (operandFits_view s src).mpr hsrc
    exact ⟨_, rfl, copy_bytes hd hx, copy_frame_other hd hx, copy_rest hd hx⟩

/-! ### A comparison after the copy -/

theorem operandFits_of_bounds_eq {s t : State} (hbounds : t.bounds = s.bounds) (x : AddrOperand) :
    t.operandFits x = s.operandFits x := by
  cases x with
  | imm x => rfl
  | view v => exact decide_eq_decide.mpr (by rw [State.addressFits, hbounds])

section NextInvocation

variable {s : State} {d : Nat} {x : AddrOperand} (hdone : (s.copy d x).responses = s.responses ++ [.doneWith 0])
  (rest : List HostEvent)
include hdone

theorem addrVal_destination_after_copy : ((s.copy d x).accept s.bounds rest).addrVal (.view d) = s.addrVal x := by
  obtain ⟨hd, hx⟩ := fits_of_copy_done hdone
  rw [State.addrVal, load32_eq, accept_frame, accept_bounds, copy_after s hd hx, after_frame, read32_write32_same]

/-- A view that does not overlap the destination keeps its value through the copy. -/
theorem addrVal_disjoint_after_copy {v : Nat} (hdisjoint : v + 4 ≤ d ∨ d + 4 ≤ v) :
    ((s.copy d x).accept s.bounds rest).addrVal (.view v) = s.addrVal (.view v) := by
  obtain ⟨hd, hx⟩ := fits_of_copy_done hdone
  rw [State.addrVal, State.addrVal, load32_eq, load32_eq, accept_frame, accept_bounds, copy_after s hd hx, after_frame,
    read32_write32_other _ _ (by omega)]

/-- Under the bounds of the copy, the destination equals every source that keeps its value through the copy. -/
theorem compare_after_copy (hkept : ((s.copy d x).accept s.bounds rest).addrVal x = s.addrVal x) :
    (((s.copy d x).accept s.bounds rest).compare (.view d) x).responses = (s.copy d x).responses ++ [.doneWith 1] := by
  obtain ⟨hd, hx⟩ := fits_of_copy_done hdone
  have hfits := operandFits_of_bounds_eq (accept_bounds (s.copy d x) s.bounds rest)
  have hd' := (hfits (.view d)).trans ((operandFits_view s d).mpr hd)
  have hequal := (addrVal_destination_after_copy hdone rest).trans hkept.symm
  rw [compare_of_addrVal_eq _ hd' ((hfits x).trans hx) hequal, respond_responses, accept_responses]

end NextInvocation

/-- Settles O32: a value is what it was before the copy; so is a source view that does not overlap the destination, and one that is the
destination is written with its own value. -/
theorem copyThenCompareIsEqual : Obligations.CopyThenCompareIsEqual := by
  constructor
  · intro d src s t hcopy hdone
    obtain rfl : s.copy d (.imm src) = t := Host.Outcome.next.inj hcopy
    exact ⟨_, rfl, compare_after_copy hdone _ rfl⟩
  · intro d src s t hcopy hdone hoverlap
    obtain rfl : s.copy d (.view src) = t := Host.Outcome.next.inj hcopy
    refine ⟨_, rfl, compare_after_copy hdone _ ?_⟩
    rcases hoverlap with rfl | hdisjoint
    · exact addrVal_destination_after_copy hdone _
    · exact addrVal_disjoint_after_copy hdone _ hdisjoint

end Sys2Proof.Machine
end

