-- ==== Sys2Proof/Proofs/CommandFaults.lean ====
section
/-! The command faults (R180 to R190). The idea: a command tests its views before anything else, so it ends in one of three ways, of which
only `DONE` leaves more than a response. -/

namespace Sys2Proof.Machine

/-- The ways a command ends, from `s` to `t`, where `views` says that its view operands fit (R183, R185, R186). -/
inductive State.Ends (s : State) (views : Prop) : State → Prop where
  | outside : ¬ views → s.Ends views (s.raise .errBounds)
  | expired : views → s.Ends views (s.raise .errTtl0)
  | done {t : State} {r : Response} : views → t.responses = s.responses ++ [r] → r.status = .done → s.Ends views t

section Endings

variable {s : State} {views : Prop}

theorem compare_ends {x y : AddrOperand} (hviews : views ↔ s.operandFits x = true ∧ s.operandFits y = true) :
    s.Ends views (s.compare x y) := by
  by_cases h : views
  · rw [compare_inside s (hviews.mp h).1 (hviews.mp h).2]
    exact .done h (respond_responses _ _) rfl
  · rw [compare_outside s (mt hviews.mpr h)]
    exact .outside h

theorem copy_ends {d : Nat} {x : AddrOperand} (hviews : views ↔ s.bounds.fits d 4 ∧ s.operandFits x = true) :
    s.Ends views (s.copy d x) := by
  by_cases h : views
  · rw [copy_inside s (hviews.mp h).1 (hviews.mp h).2]
    exact .done h (respond_responses _ _) rfl
  · rw [copy_outside s (mt hviews.mpr h)]
    exact .outside h

end Endings

/-- Every command ends in one of the three ways, by whether its own views fit. -/
theorem exec_ends (i : Instr) (s : State) : ∃ t, exec i s = .next t ∧ s.Ends (ViewsFit s i) t := by
  cases i with
  | parse =>
    by_cases hok : s.classify = .ok
    · exact ⟨_, exec_parse_ok s hok, .done trivial (respond_responses _ _) rfl⟩
    · exact ⟨_, exec_parse_rejected s hok, .done trivial (respondRejected_responses _ _) rfl⟩
  | csumip v old new =>
    by_cases h : s.bounds.fits v 20
    · exact ⟨_, exec_csumip_inside s old new h, .done h (respond_responses _ _) rfl⟩
    · exact ⟨_, exec_csumip_outside s old new h, .outside h⟩
  | csumudp c old new => exact ⟨_, rfl, .done trivial (respond_responses _ _) rfl⟩
  | ttldec v =>
    by_cases h : s.bounds.fits v 20
    · by_cases ht : s.load8 (v + 8) = 0
      · exact ⟨_, exec_ttldec_expired s h ht, .expired h⟩
      · exact ⟨_, exec_ttldec_alive s h ht, .done h (respond_responses _ _) rfl⟩
    · exact ⟨_, exec_ttldec_outside s h, .outside h⟩
  | addreqImmImm a b => exact ⟨_, rfl, compare_ends (by simp [ViewsFit])⟩
  | addreqViewImm a b => exact ⟨_, rfl, compare_ends (by simp [ViewsFit])⟩
  | addreqImmView a b => exact ⟨_, rfl, compare_ends (by simp [ViewsFit])⟩
  | addreqViewView a b => exact ⟨_, rfl, compare_ends (by simp [ViewsFit])⟩
  | addrcpyImm d src => exact ⟨_, rfl, copy_ends (by simp [ViewsFit])⟩
  | addrcpyView d src => exact ⟨_, rfl, copy_ends (by simp [ViewsFit])⟩

/-- Settles O34: of the three ways to end, the one with `ERR_BOUNDS` is the one in which a view does not fit. -/
theorem boundsFaultIffViewOutside : Obligations.BoundsFaultIffViewOutside := by
  intro i s
  obtain ⟨t, ht, hends⟩ := exec_ends i s
  constructor
  · intro houtside
    cases hends with
    | outside _ => exact ht
    | expired hfit => exact absurd hfit houtside
    | done hfit _ _ => exact absurd hfit houtside
  · intro hfit
    cases hends with
    | outside houtside => exact absurd hfit houtside
    | expired _ => exact ⟨_, _, ht, raise_responses _ _, nofun⟩
    | done _ hr hdone => exact ⟨_, _, ht, hr, by simp [hdone]⟩

/-- An invocation of whatever command word raises a fault, or answers `DONE`. -/
theorem runCommand_raises_or_done (cw : CmdWord) (s : State) :
    (∃ f, runCommand cw s = .next (s.raise f)) ∨
    (∃ t r, runCommand cw s = .next t ∧ t.responses = s.responses ++ [r] ∧ r.status = .done) := by
  cases hdecode : decode cw with
  | error e => exact .inl ⟨_, runCommand_of_decode_error hdecode⟩
  | ok i =>
    rw [runCommand_of_decode_ok hdecode]
    obtain ⟨t, ht, hends⟩ := exec_ends i s
    cases hends with
    | outside _ => exact .inl ⟨_, ht⟩
    | expired _ => exact .inl ⟨_, ht⟩
    | done _ hr hdone => exact .inr ⟨_, _, ht, hr, hdone⟩

/-- Settles O35: a response that is not `DONE` comes from a fault raised after the event was taken, and raising a fault is that response
and an empty port. -/
theorem commandFaultsChangeNothing : Obligations.CommandFaultsChangeNothing := by
  intro s t b w rest r hhost hstep hr hfault
  rw [step_of_invoke hhost] at hstep
  rcases runCommand_raises_or_done w (s.accept b rest) with ⟨f, h⟩ | ⟨u, r', h, hr', hdone⟩
  · obtain rfl := Host.Outcome.next.inj (h.symm.trans hstep)
    obtain rfl : r = .faulted f := response_unique hr (raise_responses _ f)
    rfl
  · obtain rfl := Host.Outcome.next.inj (h.symm.trans hstep)
    obtain rfl := response_unique hr hr'
    exact absurd hdone hfault

end Sys2Proof.Machine
end

