-- ==== Sys2Proof/Proofs/ResetAndHazards.lean ====
section
/-! Reset and the order of effects (R210 to R212, R222, R223, R231): what each event of the host's list leaves, and the order of the two
commands that change a checksum. -/

namespace Sys2Proof.Machine

/-! ### Every event has a next state -/

/-- Settles O7: every event of `step_cases` has a next state, and whatever the word, its invocation leaves the form `State.after`, with
one response more. -/
theorem everyInvocationAnswersOnce : Obligations.EveryInvocationAnswersOnce := by
  constructor
  · intro s
    rcases step_cases s with ⟨_, h⟩ | ⟨_, _, _, _, _, _, _, _, h⟩ | ⟨_, _, _, _, h⟩ | ⟨_, _, h⟩ |
      ⟨_, _, _, _, _, _, _, h⟩ <;> exact ⟨_, h⟩
  · intro s b w rest hhost
    obtain ⟨m, r, k, _, heffect⟩ := runCommand_effect w (s.accept b rest)
    exact ⟨_, r, (step_of_invoke hhost).trans heffect, after_responses _ m r k, after_host _ m r k, after_bounds _ m r k⟩

/-- Settles O51: the reset takes its event and empties the port. -/
theorem resetLeavesFrameBuffer : Obligations.ResetLeavesFrameBuffer :=
  fun _ _ => step_of_reset

/-- Settles O52: the step is one byte write, and a read after it is `read_write_same` or `read_write_other`. -/
theorem hostWriteIsSeen : Obligations.HostWriteIsSeen :=
  fun s a v _ hhost =>
    ⟨_, step_of_write hhost, read_write_same s.frame a v, fun _ hx => read_write_other s.frame v hx, rfl, rfl, rfl, rfl⟩

/-! ### The two changes of a checksum -/

/-- The shortcut never gives `0x0000`: its sum is positive, and an end-around carry keeps it so. -/
theorem ttlCsum_pos (hc : Half) : 0 < (ttlCsum hc).toNat := by
  rw [ttlCsum_toNat]
  exact foldStep_pos (by omega)

/-- Both orders move the checksum by `old` less `new` and by `0x0100`, modulo 65535. -/
theorem ttlCsum_csumUpdate_modEq (hc : Half) (old new : Word) :
    (ttlCsum (csumUpdate hc old new)).toNat ≡ (csumUpdate (ttlCsum hc) old new).toNat [MOD 65535] := by
  refine Nat.ModEq.add_right_cancel' (halfSum new) ?_
  calc (ttlCsum (csumUpdate hc old new)).toNat + halfSum new
    _ ≡ (csumUpdate hc old new).toNat + 0x0100 + halfSum new [MOD 65535] := (ttlCsum_modEq _).add_right _
    _ = (csumUpdate hc old new).toNat + halfSum new + 0x0100 := Nat.add_right_comm ..
    _ ≡ hc.toNat + halfSum old + 0x0100 [MOD 65535] := (csumUpdate_modEq hc old new).add_right _
    _ = hc.toNat + 0x0100 + halfSum old := Nat.add_right_comm ..
    _ ≡ (ttlCsum hc).toNat + halfSum old [MOD 65535] := (ttlCsum_modEq hc).symm.add_right _
    _ ≡ (csumUpdate (ttlCsum hc) old new).toNat + halfSum new [MOD 65535] := (csumUpdate_modEq _ old new).symm

/-- Two 16-bit values of one residue, the first not zero, are equal or the two representations of zero. -/
theorem eq_or_ones_zero_of_modEq {a b : Half} (ha : 0 < a.toNat) (h : a.toNat ≡ b.toNat [MOD 65535]) :
    a = b ∨ (a = 0xFFFF ∧ b = 0x0000) := by
  have hones : (0xFFFF : Half).toNat = 65535 := rfl
  have hzero : (0x0000 : Half).toNat = 0 := rfl
  simp only [BitVec.toNat_eq, hones, hzero]
  unfold Nat.ModEq at h
  omega

/-- Settles O28: the two orders have one residue modulo 65535, and the first, which ends with the shortcut, is not zero. -/
theorem updateAndDecrementCommute : Obligations.UpdateAndDecrementCommute :=
  fun hc old new => eq_or_ones_zero_of_modEq (ttlCsum_pos _) (ttlCsum_csumUpdate_modEq hc old new)

/-! ### An invocation cut by reset -/

theorem ite_nil_subset {α : Type} (p : Prop) [Decidable p] (l : List α) : (if p then l else []) ⊆ l := by
  split
  · exact List.Subset.refl l
  · exact List.nil_subset l

section Cut

variable (s : State) {cw : CmdWord} {i : Instr}

theorem writeSetOf_of_decode_ok (h : decode cw = .ok i) : s.writeSetOf cw = s.writeSet i := by
  rw [State.writeSetOf, h]

theorem writeSetOf_of_decode_error {e : Reject} (h : decode cw = .error e) : s.writeSetOf cw = [] := by
  rw [State.writeSetOf, h]

/-- An invocation that can write nothing leaves the frame buffer as it was. -/
theorem cutShort_frame_of_writeSetOf_nil (h : s.writeSetOf cw = []) : (s.cutShort cw).frame = s.frame := by
  rw [State.cutShort, h]
  rfl

/-- The cut of a command leaves every byte alone that is not in `l`, where its write set is. -/
theorem cutShort_frame_other (hdecode : decode cw = .ok i) {l : List Nat} (hsub : s.writeSet i ⊆ l) {x : Nat}
    (hx : x ∉ l) : (s.cutShort cw).frame.read x = s.frame.read x := by
  have hout : x ∉ s.writeSetOf cw := by
    rw [writeSetOf_of_decode_ok s hdecode]
    exact fun hin => hx (hsub hin)
  exact scramble_other hout

theorem cutShort_csumip {v : Nat} {old new : Word} (hdecode : decode cw = .ok (.csumip v old new)) :
    SameBytesOutside (s.bounds.start + v + 10) 2 s.frame (s.cutShort cw).frame := by
  intro x hx
  refine cutShort_frame_other s hdecode (ite_nil_subset _ _) ?_
  simp only [List.mem_cons, List.not_mem_nil, or_false, State.addr]
  omega

theorem cutShort_ttldec {v : Nat} (hdecode : decode cw = .ok (.ttldec v)) :
    SameBytesButTtlAndChecksum (s.bounds.start + v) s.frame (s.cutShort cw).frame := by
  intro x h8 h10 h11
  refine cutShort_frame_other s hdecode (ite_nil_subset _ _) ?_
  simp only [List.mem_cons, List.not_mem_nil, or_false, State.addr]
  omega

/-- Both forms of `ADDRCPY`, whose write sets lie in the four bytes of the destination. -/
theorem cutShort_destination {d : Nat} (hdecode : decode cw = .ok i)
    (hsub : s.writeSet i ⊆ [s.addr d, s.addr (d + 1), s.addr (d + 2), s.addr (d + 3)]) :
    SameBytesOutside (s.bounds.start + d) 4 s.frame (s.cutShort cw).frame := by
  intro x hx
  refine cutShort_frame_other s hdecode hsub ?_
  simp only [List.mem_cons, List.not_mem_nil, or_false, State.addr]
  omega

/-- A cut invocation answers nothing and takes nothing more of the host's list. -/
theorem cutShort_rest (cw : CmdWord) :
    (s.cutShort cw).responses = s.responses ∧ (s.cutShort cw).host = s.host ∧ (s.cutShort cw).bounds = Bounds.idle := by
  obtain ⟨m, k, _, h⟩ := cutShort_effect s cw
  rw [h]
  exact ⟨rfl, rfl, rfl⟩

end Cut

/-- Settles O53: the cut command scrambles its write set, which is empty for an illegal word and for every command that stores nothing. -/
theorem cutInvocationLosesOnlyItsWriteSet : Obligations.CutInvocationLosesOnlyItsWriteSet := by
  intro s b w rest hhost
  obtain ⟨hresponses, hrest, hidle⟩ := cutShort_rest (s.accept b rest) w
  refine ⟨_, step_of_cut hhost, hresponses, hrest, hidle, ?_⟩
  let s' := s.accept b rest
  cases hdecode : decode w with
  | error e => exact cutShort_frame_of_writeSetOf_nil s' (writeSetOf_of_decode_error s' hdecode)
  | ok i =>
    cases i with
    | csumip v old new => exact cutShort_csumip s' hdecode
    | ttldec v => exact cutShort_ttldec s' hdecode
    | addrcpyImm d src => exact cutShort_destination s' hdecode (ite_nil_subset _ _)
    | addrcpyView d src => exact cutShort_destination s' hdecode (ite_nil_subset _ _)
    | parse | csumudp | addreqImmImm | addreqViewImm | addreqImmView | addreqViewView =>
      exact cutShort_frame_of_writeSetOf_nil s' (writeSetOf_of_decode_ok s' hdecode)

end Sys2Proof.Machine
end
